-- ==== Sys2Proof/Word.lean ====
section
/-! DEFINITION. The words of the block: a link byte is 8 bits, the one two-byte register is 16 bits
(spec/00_scope.md R7). Addresses and counters are natural numbers that never wrap (R7, R55). -/

namespace Sys2Proof

/-- A link byte, a store byte, a one-byte register (R7). -/
abbrev Byte := BitVec 8

/-- The non-volatile configuration register's width (R7). -/
abbrev HalfWord := BitVec 16

end Sys2Proof
end

