-- ==== Sys2Proof/Config.lean ====
section
/-! DEFINITION. The closed sets of names the configuration uses, the configuration record `Cfg`
(spec/00_scope.md R6) and the one free value of the model. The values of the default configuration
stand in Decode.lean (the opcode map) and Machine/Defaults.lean (everything else). -/

namespace Sys2Proof

/-- The closed set of register identifiers (R30). -/
inductive RegisterId where
  | status
  | flagStatus
  | volatileConfig
  | nonVolatileConfig
  | enhancedVolatileConfig
  deriving DecidableEq, Repr

/-- The two erase granularities (R22); the die is the whole store (90_conflicts.md C1). -/
inductive EraseGranularity where
  | sector
  | die
  deriving DecidableEq, Repr

/-- The classes an opcode byte can be bound to (R75). -/
inductive OpClass where
  | writeEnable
  | writeDisable
  | identify
  | read
  | program
  | erase (granularity : EraseGranularity)
  | readRegister (register : RegisterId)
  | writeRegister (register : RegisterId)
  | unrecognized
  deriving DecidableEq, Repr

/-- `OPCODE_MAP` as plain data: a list of bindings, the first one of a byte counting. -/
abbrev OpcodeMap := List (Byte × OpClass)

/-- The configuration record of R6: fixed at construction, never changed afterwards. Every field is
plain data, so that a state can carry it: `OPCODE_MAP` is a list of bindings read by
`opClassOf` (a byte it does not bind is `Unrecognized`), `INIT_STORE` a list of cells (an address it does not
name holds the erased byte; a cell at or beyond `CAPACITY` is cut off, R61). -/
structure Cfg where
  /-- `CAPACITY`, in bytes. -/
  capacity : Nat
  /-- `SUPPORTED_CAPACITIES`. -/
  supportedCapacities : List Nat
  /-- `SECTOR_SIZE`, in bytes. -/
  sectorSize : Nat
  /-- `ERASED`. -/
  erased : Byte
  /-- `READ_FILLER`. -/
  readFiller : Byte
  /-- `RESP_UNSPEC`: `some b` is a platform that answers `b` wherever the spec names no response;
  `none` leaves each of those bytes unconstrained (R99, 92_eei_decisions.md D3,
  93_implementation_defined.md U11; notes/assumptions/2.md). -/
  respUnspec : Option Byte
  /-- `OPCODE_MAP`. -/
  opcodeMap : OpcodeMap
  /-- `ID_TABLE`, `ID_LEN` long. -/
  idTable : List Byte
  /-- `WEL_BIT`. -/
  welBit : Fin 8
  /-- `NVCR_ADDR3_BIT`. -/
  nvcrAddr3Bit : Fin 16
  /-- `FSR_ADDR4_BIT`. -/
  fsrAddr4Bit : Fin 8
  /-- `FSR_BASE`. -/
  fsrBase : Byte
  /-- `SR_RESET`. -/
  srReset : Byte
  /-- `VCR_RESET`. -/
  vcrReset : Byte
  /-- `NVCR_RESET`. -/
  nvcrReset : HalfWord
  /-- `EVCR_RESET`. -/
  evcrReset : Byte
  /-- `INIT_STORE`. -/
  initStore : List Host.Cell
  deriving DecidableEq, Repr

/-- FREE VALUE (notes/assumptions/2.md): the response byte of the n-th exchange for which the spec
fixes none. It has no body, so a statement holds whatever these bytes are. -/
opaque Config.freeResponse : Nat → Byte

end Sys2Proof
end

