-- ==== Sys2Proof/Syntax.lean ====
section
/-! DEFINITION. The instructions: one constructor per row of spec/opcode_table.json. An instruction is
an opcode byte, then the address bytes if its class has an address phase, then the data bytes the host
chooses to exchange (spec/30_encoding.md R70); its operands are those bytes in order of arrival.
`END` is an event of its own, not a part of the instruction. -/

namespace Sys2Proof

/-- The 27 instructions of R78. `address` are the address bytes as far as they have arrived (most
significant first, R72), `sent` the bytes whose arrival clocks out a response and whose value is
ignored (R73), `data` the bytes programmed or written. -/
inductive Instr where
  | rdid2 (sent : List Byte)
  | rdid (sent : List Byte)
  | miordid (sent : List Byte)
  | read (address sent : List Byte)
  | fastRead (address sent : List Byte)
  | dofr (address sent : List Byte)
  | diofr (address sent : List Byte)
  | qofr (address sent : List Byte)
  | qiofr (address sent : List Byte)
  | pp (address data : List Byte)
  | difp (address data : List Byte)
  | edifp (address data : List Byte)
  | qifp (address data : List Byte)
  | eqifp (address data : List Byte)
  | se (address : List Byte)
  | de (address : List Byte)
  | wren
  | wrdi
  | rdsr (sent : List Byte)
  | rfsr (sent : List Byte)
  | rdvcr (sent : List Byte)
  | rdnvcr (sent : List Byte)
  | rdvecr (sent : List Byte)
  | wrsr (data : List Byte)
  | wrvcr (data : List Byte)
  | wrnvcr (data : List Byte)
  | wrvecr (data : List Byte)
  deriving DecidableEq, Repr

end Sys2Proof
end

