-- ==== Sys2Proof/WellFormed.lean ====
section
/-! DEFINITION. Which instructions the byte stream can spell (spec/30_encoding.md R70, R77), and which
configurations a block can be constructed with (spec/00_scope.md R6). -/

namespace Sys2Proof

/-- The address phase takes `addrLen` bytes before any data byte: an instruction has no more address
bytes than that, and no data byte while one of them is still missing (R70, R25). -/
def addressPhaseOk (addrLen : Nat) (address data : List Byte) : Bool :=
  address.length == addrLen || (decide (address.length < addrLen) && data.isEmpty)

/-- Well-formedness of an instruction where addresses are `addrLen` bytes long (R77). The formats
without an address phase have nothing to check: any number of data bytes is legal (R70). -/
def Instr.wf (addrLen : Nat) : Instr → Bool
  | .rdid2 _ => true
  | .rdid _ => true
  | .miordid _ => true
  | .read address sent => addressPhaseOk addrLen address sent
  | .fastRead address sent => addressPhaseOk addrLen address sent
  | .dofr address sent => addressPhaseOk addrLen address sent
  | .diofr address sent => addressPhaseOk addrLen address sent
  | .qofr address sent => addressPhaseOk addrLen address sent
  | .qiofr address sent => addressPhaseOk addrLen address sent
  | .pp address data => addressPhaseOk addrLen address data
  | .difp address data => addressPhaseOk addrLen address data
  | .edifp address data => addressPhaseOk addrLen address data
  | .qifp address data => addressPhaseOk addrLen address data
  | .eqifp address data => addressPhaseOk addrLen address data
  | .se address => addressPhaseOk addrLen address []
  | .de address => addressPhaseOk addrLen address []
  | .wren => true
  | .wrdi => true
  | .rdsr _ => true
  | .rfsr _ => true
  | .rdvcr _ => true
  | .rdnvcr _ => true
  | .rdvecr _ => true
  | .wrsr _ => true
  | .wrvcr _ => true
  | .wrnvcr _ => true
  | .wrvecr _ => true

/-- The constraints R6 puts on a configuration; one that violates them is a construction error
(R192) and no block exists with it. `OPCODE_MAP` is total by construction. -/
def Cfg.wf (c : Cfg) : Bool :=
  c.supportedCapacities.contains c.capacity
    && decide (0 < c.sectorSize)
    && c.capacity % c.sectorSize == 0
    && c.nvcrReset.getLsbD c.nvcrAddr3Bit
    && !c.srReset.getLsbD c.welBit

end Sys2Proof
end

