-- ==== Sys2Proof/Decode.lean ====
section
/-! DEFINITION. The Operation Decoder's table and the byte encoding of instructions
(spec/30_encoding.md R70 to R85): the default opcode map, the decoder, total on any bytes and
rejecting by name, and the encoder. -/

namespace Sys2Proof

/-- The default `OPCODE_MAP`: the 27 rows of R78, in its order. -/
def defaultOpcodeMap : OpcodeMap :=
  [ (0x9E, .identify), (0x9F, .identify), (0xAF, .identify),
    (0x03, .read), (0x0B, .read), (0x3B, .read), (0xBB, .read), (0x6B, .read), (0xEB, .read) ]
  ++ [ (0x02, .program), (0xA2, .program), (0xD2, .program), (0x32, .program), (0x38, .program),
    (0xD8, .erase .sector), (0xC4, .erase .die),
    (0x06, .writeEnable), (0x04, .writeDisable) ]
  ++ [ (0x05, .readRegister .status), (0x70, .readRegister .flagStatus),
    (0x85, .readRegister .volatileConfig), (0xB5, .readRegister .nonVolatileConfig),
    (0x65, .readRegister .enhancedVolatileConfig) ]
  ++ [ (0x01, .writeRegister .status), (0x81, .writeRegister .volatileConfig),
    (0xB1, .writeRegister .nonVolatileConfig), (0x61, .writeRegister .enhancedVolatileConfig) ]

/-- `OPCODE_MAP(b)`: every byte the map does not bind is `Unrecognized` (R6, R80). -/
def opClassOf (map : OpcodeMap) (b : Byte) : OpClass :=
  (map.lookup b).getD .unrecognized

/-- Why the decoder rejects a byte sequence. -/
inductive DecodeReject where
  /-- There is no byte. -/
  | noByte
  /-- The opcode byte is bound to no class: the block logs `EV1` (R80). -/
  | unrecognized (opcode : Byte)
  /-- The opcode byte is bound to `WriteRegister(FlagStatus)`, which no row of the opcode table
  spells and the default map never binds (R78, 92_eei_decisions.md D34); the block has a meaning for
  it all the same (R166). -/
  | flagStatusWrite (opcode : Byte)
  deriving DecidableEq, Repr

/-- What the decoder answers: an instruction and the bytes that are no part of it, or a rejection. -/
inductive Decoded where
  | instr (i : Instr) (rest : List Byte)
  | rejected (why : DecodeReject)
  deriving DecidableEq, Repr

/-- The identification opcodes are told apart by their number only: after decoding they act alike
(R118). A byte another map binds to the class is spelled RDID (notes/assumptions/8.md). -/
def spellIdentify (opcode : Byte) (sent : List Byte) : Instr :=
  if opcode = 0x9E then .rdid2 sent
  else if opcode = 0xAF then .miordid sent
  else .rdid sent

/-- The read opcodes are interchangeable after decoding (R122). A byte another map binds to the class
is spelled READ. -/
def spellRead (opcode : Byte) (address sent : List Byte) : Instr :=
  if opcode = 0x0B then .fastRead address sent
  else if opcode = 0x3B then .dofr address sent
  else if opcode = 0xBB then .diofr address sent
  else if opcode = 0x6B then .qofr address sent
  else if opcode = 0xEB then .qiofr address sent
  else .read address sent

/-- The program opcodes act alike after decoding (R136). A byte another map binds to the class is
spelled PP. -/
def spellProgram (opcode : Byte) (address data : List Byte) : Instr :=
  if opcode = 0xA2 then .difp address data
  else if opcode = 0xD2 then .edifp address data
  else if opcode = 0x32 then .qifp address data
  else if opcode = 0x38 then .eqifp address data
  else .pp address data

/-- The instruction that a run of link bytes spells, where addresses are `addrLen` bytes long (R77).
The class comes from the opcode map (R75); the formats with a data phase take every byte of
the run (it is open-ended, R70), the others leave the rest. -/
def decode (map : OpcodeMap) (addrLen : Nat) : List Byte → Decoded
  | [] => .rejected .noByte
  | b :: bytes =>
    match opClassOf map b with
    | .writeEnable => .instr .wren bytes
    | .writeDisable => .instr .wrdi bytes
    | .identify => .instr (spellIdentify b bytes) []
    | .read => .instr (spellRead b (bytes.take addrLen) (bytes.drop addrLen)) []
    | .program => .instr (spellProgram b (bytes.take addrLen) (bytes.drop addrLen)) []
    | .erase .sector => .instr (.se (bytes.take addrLen)) (bytes.drop addrLen)
    | .erase .die => .instr (.de (bytes.take addrLen)) (bytes.drop addrLen)
    | .readRegister .status => .instr (.rdsr bytes) []
    | .readRegister .flagStatus => .instr (.rfsr bytes) []
    | .readRegister .volatileConfig => .instr (.rdvcr bytes) []
    | .readRegister .nonVolatileConfig => .instr (.rdnvcr bytes) []
    | .readRegister .enhancedVolatileConfig => .instr (.rdvecr bytes) []
    | .writeRegister .status => .instr (.wrsr bytes) []
    | .writeRegister .flagStatus => .rejected (.flagStatusWrite b)
    | .writeRegister .volatileConfig => .instr (.wrvcr bytes) []
    | .writeRegister .nonVolatileConfig => .instr (.wrnvcr bytes) []
    | .writeRegister .enhancedVolatileConfig => .instr (.wrvecr bytes) []
    | .unrecognized => .rejected (.unrecognized b)

/-- The opcode byte of an instruction (R78). -/
def Instr.opcode : Instr → Byte
  | .rdid2 _ => 0x9E
  | .rdid _ => 0x9F
  | .miordid _ => 0xAF
  | .read _ _ => 0x03
  | .fastRead _ _ => 0x0B
  | .dofr _ _ => 0x3B
  | .diofr _ _ => 0xBB
  | .qofr _ _ => 0x6B
  | .qiofr _ _ => 0xEB
  | .pp _ _ => 0x02
  | .difp _ _ => 0xA2
  | .edifp _ _ => 0xD2
  | .qifp _ _ => 0x32
  | .eqifp _ _ => 0x38
  | .se _ => 0xD8
  | .de _ => 0xC4
  | .wren => 0x06
  | .wrdi => 0x04
  | .rdsr _ => 0x05
  | .rfsr _ => 0x70
  | .rdvcr _ => 0x85
  | .rdnvcr _ => 0xB5
  | .rdvecr _ => 0x65
  | .wrsr _ => 0x01
  | .wrvcr _ => 0x81
  | .wrnvcr _ => 0xB1
  | .wrvecr _ => 0x61

/-- The class of an instruction (R78, column OpClass). -/
def Instr.opClass : Instr → OpClass
  | .rdid2 _ => .identify
  | .rdid _ => .identify
  | .miordid _ => .identify
  | .read _ _ => .read
  | .fastRead _ _ => .read
  | .dofr _ _ => .read
  | .diofr _ _ => .read
  | .qofr _ _ => .read
  | .qiofr _ _ => .read
  | .pp _ _ => .program
  | .difp _ _ => .program
  | .edifp _ _ => .program
  | .qifp _ _ => .program
  | .eqifp _ _ => .program
  | .se _ => .erase .sector
  | .de _ => .erase .die
  | .wren => .writeEnable
  | .wrdi => .writeDisable
  | .rdsr _ => .readRegister .status
  | .rfsr _ => .readRegister .flagStatus
  | .rdvcr _ => .readRegister .volatileConfig
  | .rdnvcr _ => .readRegister .nonVolatileConfig
  | .rdvecr _ => .readRegister .enhancedVolatileConfig
  | .wrsr _ => .writeRegister .status
  | .wrvcr _ => .writeRegister .volatileConfig
  | .wrnvcr _ => .writeRegister .nonVolatileConfig
  | .wrvecr _ => .writeRegister .enhancedVolatileConfig

/-- The bytes after the opcode byte, in order: the address bytes, then the data bytes (R70). -/
def Instr.operands : Instr → List Byte
  | .rdid2 sent => sent
  | .rdid sent => sent
  | .miordid sent => sent
  | .read address sent => address ++ sent
  | .fastRead address sent => address ++ sent
  | .dofr address sent => address ++ sent
  | .diofr address sent => address ++ sent
  | .qofr address sent => address ++ sent
  | .qiofr address sent => address ++ sent
  | .pp address data => address ++ data
  | .difp address data => address ++ data
  | .edifp address data => address ++ data
  | .qifp address data => address ++ data
  | .eqifp address data => address ++ data
  | .se address => address
  | .de address => address
  | .wren => []
  | .wrdi => []
  | .rdsr sent => sent
  | .rfsr sent => sent
  | .rdvcr sent => sent
  | .rdnvcr sent => sent
  | .rdvecr sent => sent
  | .wrsr data => data
  | .wrvcr data => data
  | .wrnvcr data => data
  | .wrvecr data => data

/-- The link bytes of an instruction (R70, R85). -/
def encode (i : Instr) : List Byte :=
  i.opcode :: i.operands

/-- A map binds the instruction's opcode byte of R78 to the instruction's class, as the default map
does for every instruction. -/
def Instr.boundBy (map : OpcodeMap) (i : Instr) : Prop :=
  opClassOf map i.opcode = i.opClass

/-- The first `n` bytes of a word numbered as spec/opcode_table.json numbers it: the first byte is
the least significant. -/
def wordBytes : Nat → Nat → List Byte
  | 0, _ => []
  | n + 1, w => BitVec.ofNat 8 w :: wordBytes n (w / 256)

/-- The instruction the decoder reads from a row's word, under the default opcode map and the address
length after reset. A row's word is its opcode byte and nothing else, and no later byte is fixed by
it: the answer is the instruction with no operand byte yet (notes/assumptions/4.md). -/
def decodeTableWord (nbits w : Nat) : Option Instr :=
  match decode defaultOpcodeMap 3 (wordBytes (nbits / 8) w) with
  | .instr i _ => some i
  | .rejected _ => none

end Sys2Proof
end

