-- ==== Sys2Proof/Machine/Defaults.lean ====
section
/-! DEFINITION. The default configuration: the values spec/00_scope.md R6 gives the fields of `Cfg`
(notes/assumptions/1.md: the spec's own choices, after the device family it assumes). -/

namespace Sys2Proof

/-- `SUPPORTED_CAPACITIES`: the powers of two from 2^20 to 2^28 (R6). -/
def defaultCapacities : List Nat :=
  (List.range 9).map fun k => 2 ^ (20 + k)

/-- `CAPCODE` (R116): `0x14` to `0x19` for 2^20 to 2^25, `0x20` to `0x22` for 2^26 to 2^28. The table
has no row for another size, and no block is constructed with one (R192); zero stands there
(notes/assumptions/9.md). -/
def capacityCode (capacity : Nat) : Byte :=
  (([0x14, 0x15, 0x16, 0x17, 0x18, 0x19, 0x20, 0x21, 0x22] : List Byte)[defaultCapacities.idxOf capacity]?).getD 0

/-- The default `ID_TABLE` (R116), 20 bytes. -/
def defaultIdTable (capacity : Nat) : List Byte :=
  [0x20, 0xBB, capacityCode capacity, 0x10, 0x00, 0x00] ++ List.replicate 14 0x00

/-- The default configuration at a given `CAPACITY`, the one field R6 gives no default. -/
def Cfg.ofCapacity (capacity : Nat) : Cfg where
  capacity := capacity
  supportedCapacities := defaultCapacities
  sectorSize := 0x10000
  erased := 0xFF
  readFiller := 0x00
  respUnspec := some 0x00
  opcodeMap := defaultOpcodeMap
  idTable := defaultIdTable capacity
  welBit := 1
  nvcrAddr3Bit := 0
  fsrAddr4Bit := 0
  fsrBase := 0x00
  srReset := 0x00
  vcrReset := 0xFB
  nvcrReset := 0xFFFF
  evcrReset := 0xFF
  initStore := []

/-- The configuration of the spec's examples: 1 MiB (R6, notes/assumptions/3.md). -/
def Cfg.default : Cfg :=
  Cfg.ofCapacity 0x100000

/-- The same configuration with every response byte the spec fixes nothing about left unconstrained
(R99, notes/assumptions/2.md): the configuration of the model's reset state. -/
def Cfg.cautious : Cfg :=
  { Cfg.default with respUnspec := none }

end Sys2Proof
end

