-- ==== Sys2Proof/Machine/State.lean ====
section
/-! DEFINITION. The machine's state (spec/10_state.md R20 to R45), its events (spec/00_scope.md R10),
the anomalies it logs (spec/60_exceptions.md R180), the reasons a step could stop, and the state after
reset. -/

namespace Sys2Proof.Machine

/-- The five states of the transaction state machine (R21). -/
inductive FsmState where
  | idle
  | accAddrData
  | accAddrNoData
  | inDataPhase
  | noDataReady
  deriving DecidableEq, Repr

/-- The kind of a decoded operation, carrying the target register or the erase granularity where it
has one, so that neither can be read of another kind (R22; notes/assumptions/15.md). -/
inductive OpKind where
  | none
  | read
  | identify
  | program
  | erase (granularity : EraseGranularity)
  | readRegister (register : RegisterId)
  | writeRegister (register : RegisterId)
  deriving DecidableEq, Repr

/-- The per-transaction record `op` (R22): the block's working registers (R27) and, with `fsm`, its
sequencer position (R28). -/
structure DecodedOperation where
  /-- `kind`, with `register` and `eraseGranularity` inside it. -/
  kind : OpKind
  /-- 0, 3 or 4. -/
  addressLength : Nat
  /-- 0 to 4. -/
  addressBytesReceived : Nat
  /-- Below 2^32; the base address once all address bytes are in. -/
  accumulatedAddress : Nat
  /-- Unbounded, never wraps (R7). -/
  bytesHandledInDataPhase : Nat
  deriving DecidableEq, Repr

/-- `EMPTY_OP` (R23). -/
def DecodedOperation.empty : DecodedOperation where
  kind := .none
  addressLength := 0
  addressBytesReceived := 0
  accumulatedAddress := 0
  bytesHandledInDataPhase := 0

/-- The three input events (R10). -/
inductive Event where
  | byte (b : Byte)
  | endTransaction
  | reset
  deriving DecidableEq, Repr

/-- The anomalies the block logs (R180), `EV1` to `EV12` in order, each with the information R180 says
its log line carries. None is a fault: the machine goes on (R181). -/
inductive Anomaly where
  /-- `EV1` DECODE_FAIL. -/
  | decodeFail (opcode : Byte)
  /-- `EV2` END_MID_ADDRESS. -/
  | endMidAddress (kind : OpKind) (received length : Nat)
  /-- `EV3` END_NO_OPCODE. -/
  | endNoOpcode
  /-- `EV4` REG_BYTE_COUNT: the index of the extra byte, or at `END` the count of bytes. -/
  | regByteCount (register : RegisterId) (count : Nat)
  /-- `EV5` PERM_PROGRAM. -/
  | permProgram (echoed : Byte)
  /-- `EV6` PERM_ERASE. -/
  | permErase (granularity : EraseGranularity) (address : Nat)
  /-- `EV7` PERM_REGWRITE. -/
  | permRegWrite (register : RegisterId) (value : Byte)
  /-- `EV8` BOUNDS_READ. -/
  | boundsRead (address : Nat)
  /-- `EV9` BOUNDS_PROGRAM. -/
  | boundsProgram (address : Nat) (value : Byte)
  /-- `EV10` BOUNDS_ERASE. -/
  | boundsErase (address : Nat)
  /-- `EV11` ID_OVERRUN. -/
  | idOverrun (index : Nat)
  /-- `EV12` REG_NOT_WRITABLE. -/
  | regNotWritable (register : RegisterId) (value : Byte)
  deriving DecidableEq, Repr

/-- The backing store as data (R41): pairs of address and byte, addresses strictly rising; an address
below `CAPACITY` that is not listed holds the erased byte, and no pair says that. -/
abbrev Memory := List Host.Cell

/-- The state of one block (R20), with the configuration it was constructed with, the link and what
the block has put out. -/
structure State where
  /-- The configuration: a parameter of the step, not state of the block (R45). It stands here because
  the step is given nothing but the state; no step changes it (notes/assumptions/3.md). -/
  cfg : Cfg
  /-- The transaction state machine (R21). -/
  fsm : FsmState
  /-- The decoded operation (R22). -/
  op : DecodedOperation
  /-- The ghost bit behind `EV3` (R43). -/
  opcodeSeen : Bool
  /-- The write-enable latch (R29). -/
  wel : Bool
  /-- The volatile configuration register (R35). -/
  vcr : Byte
  /-- The non-volatile configuration register (R36). -/
  nvcr : HalfWord
  /-- The enhanced-volatile configuration register (R37). -/
  evcr : Byte
  /-- The backing store (R41). -/
  store : Memory
  /-- The link: the events the host has issued and the block has not yet processed, in order
  (R10, R63; the model's own field, notes/assumptions/4.md). -/
  link : List Event
  /-- Output: the response bytes so far, oldest first (R10; the model's own field,
  notes/assumptions/5.md). No step reads it. -/
  responses : List Byte
  /-- Output: the anomalies logged so far, oldest first (R180; the model's own field,
  notes/assumptions/5.md). No step reads it. -/
  log : List Anomaly
  /-- How many unconstrained response bytes have been given (the model's own field,
  notes/assumptions/2.md). -/
  freeIndex : Nat
  deriving DecidableEq, Repr

/-- The reasons a step can stop with a fault. There are none: the step function is total and has no
fault outcome (R181). -/
inductive Fault where
  deriving DecidableEq, Repr

/-- The reasons a step can be refused. -/
inductive Refusal where
  /-- Raised by `exec` alone, for an instruction without a meaning; every instruction has one, so no
  step raises it. Safe: nothing can be proved past a refusal. -/
  | notModelled (mnemonic : String)
  deriving DecidableEq, Repr

/-- The power-on state, which is the state after `RESET` (R40, R203), of a 1 MiB block whose store
holds `INIT_STORE`, nothing but erased bytes; the host has issued no event yet. -/
def State.reset : State where
  cfg := Cfg.cautious
  fsm := .idle
  op := DecodedOperation.empty
  opcodeSeen := false
  wel := false
  vcr := 0xFB
  nvcr := 0xFFFF
  evcr := 0xFF
  store := []
  link := []
  responses := []
  log := []
  freeIndex := 0

end Sys2Proof.Machine
end

