-- ==== Sys2Proof/Machine/Operands.lean ====
section
/-! DEFINITION. The operand forms: the address length, the address bytes, the effective address of a
data byte, the sector of an address, and the two bytes of the non-volatile configuration register. -/

namespace Sys2Proof.Machine

/-- `AddrLen()` (R31): bit `NVCR_ADDR3_BIT` of the non-volatile configuration register, 1 for 3-byte
addresses. -/
def State.addrLen (s : State) : Nat :=
  if s.nvcr.getLsbD s.cfg.nvcrAddr3Bit then 3 else 4

/-- One more address byte, most significant first (R72): `acc <- (acc << 8) | b`. -/
def appendAddressByte (acc : Nat) (b : Byte) : Nat :=
  (acc <<< 8) ||| b.toNat

/-- The address spelled by a list of address bytes (R56, R72). -/
def addressValue (address : List Byte) : Nat :=
  address.foldl appendAddressByte 0

/-- The effective address of the data byte at hand: base plus running offset, unbounded (R55). -/
def DecodedOperation.effectiveAddress (op : DecodedOperation) : Nat :=
  op.accumulatedAddress + op.bytesHandledInDataPhase

/-- The address aligned down to its sector's boundary (R59, R143). -/
def sectorBase (sectorSize a : Nat) : Nat :=
  a - a % sectorSize

/-- `nvcr[7:0]` (R57). -/
def lowByte (v : HalfWord) : Byte :=
  v.extractLsb' 0 8

/-- `nvcr[15:8]` (R57). -/
def highByte (v : HalfWord) : Byte :=
  v.extractLsb' 8 8

/-- `(nvcr & 0xFF00) | b` (R66, R169). -/
def withLowByte (v : HalfWord) (b : Byte) : HalfWord :=
  (v &&& 0xFF00) ||| b.zeroExtend 16

/-- `(nvcr & 0x00FF) | (b << 8)` (R66, R169). -/
def withHighByte (v : HalfWord) (b : Byte) : HalfWord :=
  (v &&& 0x00FF) ||| (b.zeroExtend 16 <<< 8)

/-- A register's width in bytes (R7, R168). -/
def registerBytes : RegisterId → Nat
  | .status => 1
  | .flagStatus => 1
  | .volatileConfig => 1
  | .nonVolatileConfig => 2
  | .enhancedVolatileConfig => 1

/-- The registers a register write can change (R165, R166). -/
def registerWritable : RegisterId → Bool
  | .status => false
  | .flagStatus => false
  | .volatileConfig => true
  | .nonVolatileConfig => true
  | .enhancedVolatileConfig => true

end Sys2Proof.Machine
end

