-- ==== Sys2Proof/Machine/Flags.lean ====
section
/-! DEFINITION. The block's one flag, the write-enable latch (spec/10_state.md R29), the two registers
that are views of other state (R32, R34), and which operations make `END` clear the latch
(spec/40_transaction.md R95). -/

namespace Sys2Proof.Machine

/-- The status register SR (R32): the latch at bit `WEL_BIT`, every other bit 0. -/
def State.statusRegister (s : State) : Byte :=
  (BitVec.ofBool s.wel).zeroExtend 8 <<< s.cfg.welBit.val

/-- The flag-status register FSR (R34): bit `FSR_ADDR4_BIT` is 1 in 4-byte mode, every other bit that
of `FSR_BASE`. -/
def State.flagStatusRegister (s : State) : Byte :=
  (s.cfg.fsrBase &&& ~~~(1#8 <<< s.cfg.fsrAddr4Bit.val))
    ||| ((if s.addrLen = 4 then 1#8 else 0#8) <<< s.cfg.fsrAddr4Bit.val)

/-- The operations after which `END` clears the latch (R95). -/
def OpKind.mutating : OpKind → Bool
  | .none => false
  | .read => false
  | .identify => false
  | .program => true
  | .erase _ => true
  | .readRegister _ => false
  | .writeRegister r => r == .volatileConfig

end Sys2Proof.Machine
end

