-- ==== Sys2Proof/Machine/Ops.lean ====
section
/-! DEFINITION. The named operations the meanings share: the backing store (spec/20_memory.md R52 to
R54), the response byte and the event output (spec/60_exceptions.md R180), the start of an operation
(spec/30_encoding.md R76) and the count of data bytes (spec/10_state.md R26). An anomaly takes no
exception: nothing is saved and control goes nowhere (R189), so `State.emit` is all there is to
raising one, and there is no return. -/

namespace Sys2Proof.Machine

/-! ## The store as a list of cells -/

/-- The byte at an address; an address that is not listed holds `blank`. -/
def Memory.read (blank : Byte) : Memory → Nat → Byte
  | [], _ => blank
  | (a, v) :: m, x => if x = a then v else Memory.read blank m x

/-- `m` with the byte `v` at address `x`, in canonical form. -/
def Memory.write (blank : Byte) : Memory → Nat → Byte → Memory
  | [], x, v => if v = blank then [] else [(x, v)]
  | (a, w) :: m, x, v =>
    if x < a then (if v = blank then (a, w) :: m else (x, v) :: (a, w) :: m)
    else if x = a then (if v = blank then m else (x, v) :: m)
    else (a, w) :: Memory.write blank m x v

/-- `v` at the `n` addresses from `a` on, one write each. -/
def Memory.writeRun (blank v : Byte) : Nat → Nat → Memory → Memory
  | 0, _, m => m
  | n + 1, a, m => Memory.writeRun blank v n (a + 1) (Memory.write blank m a v)

/-- `v` at the `n` addresses from `a` on; filling with `blank` drops the cells of the range. -/
def Memory.fill (blank : Byte) (m : Memory) (a n : Nat) (v : Byte) : Memory :=
  if v = blank then m.filter fun c => !(decide (a ≤ c.1) && decide (c.1 < a + n))
  else Memory.writeRun blank v n a m

/-- The canonical form: addresses strictly rising and below the capacity, no cell saying what an
unlisted address says anyway. -/
abbrev Memory.wf (blank : Byte) (capacity : Nat) (m : Memory) : Prop :=
  m.Pairwise (fun c d => c.1 < d.1) ∧ ∀ c ∈ m, c.2 ≠ blank ∧ c.1 < capacity

/-! ## The store primitives -/

/-- The byte the store holds at an address of the store. -/
def State.byteAt (s : State) (a : Nat) : Byte :=
  Memory.read s.cfg.erased s.store a

/-- `StoreRead` (R52); `none` is the outcome `OutOfRange`. -/
def State.storeRead (s : State) (a : Nat) : Option Byte :=
  if a < s.cfg.capacity then some (s.byteAt a) else none

/-- `StoreWrite` (R53, R67: the byte is replaced); `none` is `OutOfRange`, the store unchanged. -/
def State.storeWrite (s : State) (a : Nat) (v : Byte) : Option State :=
  if a < s.cfg.capacity then some { s with store := Memory.write s.cfg.erased s.store a v } else none

/-- `StoreFill` (R54): all or nothing; `none` is `OutOfRange`, the store unchanged. -/
def State.storeFill (s : State) (a n : Nat) (v : Byte) : Option State :=
  if a + n ≤ s.cfg.capacity then
    some { s with store := Memory.fill s.cfg.erased s.store a n v }
  else none

/-- The store after construction (R203): `INIT_STORE`, its cells at and beyond `CAPACITY` cut off
(R61; notes/assumptions/13.md). -/
def Cfg.initialStore (c : Cfg) : Memory :=
  c.initStore.foldl (fun m cell =>
    if cell.1 < c.capacity then Memory.write c.erased m cell.1 cell.2 else m) []

/-! ## Outputs -/

/-- `respond v` (R9). -/
def State.respond (s : State) (v : Byte) : State :=
  { s with responses := s.responses ++ [v] }

/-- The byte `RESP_UNSPEC` stands for at this point of the run. -/
def State.unspecifiedByte (s : State) : Byte :=
  match s.cfg.respUnspec with
  | some b => b
  | none => Config.freeResponse s.freeIndex

/-- `respond RESP_UNSPEC` (R99): a response the spec fixes nothing about. -/
def State.respondUnspec (s : State) : State :=
  { s with responses := s.responses ++ [s.unspecifiedByte], freeIndex := s.freeIndex + 1 }

/-- `emit EVn` (R180): the anomaly is logged and nothing else changes. -/
def State.emit (s : State) (e : Anomaly) : State :=
  { s with log := s.log ++ [e] }

/-- The codes of R180. -/
inductive EventCode where
  | ev1 | ev2 | ev3 | ev4 | ev5 | ev6 | ev7 | ev8 | ev9 | ev10 | ev11 | ev12
  deriving DecidableEq, Repr

/-- The event code of an anomaly (R180). -/
def Anomaly.code : Anomaly → EventCode
  | .decodeFail _ => .ev1
  | .endMidAddress _ _ _ => .ev2
  | .endNoOpcode => .ev3
  | .regByteCount _ _ => .ev4
  | .permProgram _ => .ev5
  | .permErase _ _ => .ev6
  | .permRegWrite _ _ => .ev7
  | .boundsRead _ => .ev8
  | .boundsProgram _ _ => .ev9
  | .boundsErase _ => .ev10
  | .idOverrun _ => .ev11
  | .regNotWritable _ _ => .ev12

/-! ## The sequencer -/

/-- The operations with an address phase (R76). -/
def OpKind.hasAddress : OpKind → Bool
  | .none => false
  | .read => true
  | .identify => false
  | .program => true
  | .erase _ => true
  | .readRegister _ => false
  | .writeRegister _ => false

/-- The state the opcode byte of an operation leads to (R76, column "next fsm"). -/
def OpKind.firstFsm : OpKind → FsmState
  | .none => .idle
  | .read => .accAddrData
  | .identify => .inDataPhase
  | .program => .accAddrData
  | .erase _ => .accAddrNoData
  | .readRegister _ => .inDataPhase
  | .writeRegister _ => .inDataPhase

/-- The opcode byte of an operation (R91, R76): the record is made afresh, with the address length of
the mode at this moment (R77). -/
def State.beginOperation (s : State) (kind : OpKind) : State :=
  State.respondUnspec { s with
    opcodeSeen := true
    fsm := kind.firstFsm
    op := { DecodedOperation.empty with
      kind := kind
      addressLength := if kind.hasAddress then s.addrLen else 0 } }

/-- The opcode byte of WREN or WRDI (R110): the latch changes at once, no operation is created. -/
def State.setLatch (s : State) (wel : Bool) : State :=
  State.respondUnspec { s with opcodeSeen := true, wel := wel }

/-- A data byte has been handled, whatever came of it (R26). -/
def State.countDataByte (s : State) : State :=
  { s with op := { s.op with bytesHandledInDataPhase := s.op.bytesHandledInDataPhase + 1 } }

end Sys2Proof.Machine
end

