-- ==== Sys2Proof/Machine/AddressPhase.lean ====
section
/-! DEFINITION. The address phase (spec/40_transaction.md R92) and the erase that its last byte
executes (spec/45_erase.md R140 to R144). -/

namespace Sys2Proof.Machine

/-- `ExecuteErase` (R140): latch first, bounds second. A die erase ignores the address (R144). An
operation of another kind erases nothing; no run gets there with one (R24 item 3;
notes/assumptions/7.md). -/
def executeErase (s : State) : State :=
  match s.op.kind with
  | .erase granularity =>
    if s.wel then
      match granularity with
      | .sector =>
        (s.storeFill (sectorBase s.cfg.sectorSize s.op.accumulatedAddress) s.cfg.sectorSize
          s.cfg.erased).getD (s.emit (.boundsErase s.op.accumulatedAddress))
      | .die => (s.storeFill 0 s.cfg.capacity s.cfg.erased).getD s
    else s.emit (.permErase granularity s.op.accumulatedAddress)
  | _ => s

/-- The address byte is appended and counted (R92). -/
def State.takeAddressByte (s : State) (b : Byte) : State :=
  { s with op := { s.op with
      accumulatedAddress := appendAddressByte s.op.accumulatedAddress b
      addressBytesReceived := s.op.addressBytesReceived + 1 } }

/-- What follows the last address byte (R92): the data phase of a Read or Program, the erase of an
Erase, in the same step. -/
def State.finishAddress (s : State) : State :=
  if s.fsm = .accAddrData then { s with fsm := .inDataPhase }
  else executeErase { s with fsm := .noDataReady }

/-- `BYTE(b)` in `AccAddrData` or `AccAddrNoData` (R92). -/
def addressByte (s : State) (b : Byte) : State :=
  let t := s.takeAddressByte b
  State.respondUnspec (if t.op.addressBytesReceived = t.op.addressLength then t.finishAddress else t)

end Sys2Proof.Machine
end

