-- ==== Sys2Proof/Machine/Erase.lean ====
section
/-! DEFINITION. SE and DE (spec/45_erase.md R140 to R148). The erase itself is `executeErase`, run by
the address phase's last byte. -/

namespace Sys2Proof.Machine

/-- An erase transaction: the opcode byte and the address phase. -/
def runErase (granularity : EraseGranularity) (address : List Byte) (s : State) : State :=
  address.foldl addressByte (s.beginOperation (.erase granularity))

/-- SE (R147). -/
def execSe (address : List Byte) (s : State) : Host.Outcome State Fault Refusal :=
  .next (runErase .sector address s)

/-- DE (R148). -/
def execDe (address : List Byte) (s : State) : Host.Outcome State Fault Refusal :=
  .next (runErase .die address s)

end Sys2Proof.Machine
end

