-- ==== Sys2Proof/Machine/Identify.lean ====
section
/-! DEFINITION. RDID, RDID2 and MIORDID (spec/42_identify.md R115 to R119). -/

namespace Sys2Proof.Machine

/-- `HandleIdentify` (R115): the next byte of the identification table, the filler and `EV11` past its
end. The byte sent is ignored. -/
def identifyByte (s : State) (_sent : Byte) : State :=
  State.countDataByte <|
    match s.cfg.idTable[s.op.bytesHandledInDataPhase]? with
    | some v => s.respond v
    | none => (s.emit (.idOverrun s.op.bytesHandledInDataPhase)).respond s.cfg.readFiller

/-- An identification transaction: the opcode byte, then its data bytes. -/
def runIdentify (sent : List Byte) (s : State) : State :=
  sent.foldl identifyByte (s.beginOperation .identify)

/-- RDID (R117). -/
def execRdid (sent : List Byte) (s : State) : Host.Outcome State Fault Refusal :=
  .next (runIdentify sent s)

/-- RDID2 (R118). -/
def execRdid2 (sent : List Byte) (s : State) : Host.Outcome State Fault Refusal :=
  .next (runIdentify sent s)

/-- MIORDID (R119). -/
def execMiordid (sent : List Byte) (s : State) : Host.Outcome State Fault Refusal :=
  .next (runIdentify sent s)

end Sys2Proof.Machine
end

