-- ==== Sys2Proof/Machine/Latch.lean ====
section
/-! DEFINITION. WREN and WRDI (spec/41_latch_commands.md R110 to R113). -/

namespace Sys2Proof.Machine

/-- WREN (R111): `wel <- 1`. -/
def execWren (s : State) : Host.Outcome State Fault Refusal :=
  .next (s.setLatch true)

/-- WRDI (R112): `wel <- 0`. -/
def execWrdi (s : State) : Host.Outcome State Fault Refusal :=
  .next (s.setLatch false)

end Sys2Proof.Machine
end

