-- ==== Sys2Proof/Machine/Program.lean ====
section
/-! DEFINITION. PP, DIFP, EDIFP, QIFP and EQIFP (spec/44_program.md R130 to R139). -/

namespace Sys2Proof.Machine

/-- `HandleProgram` (R130): with the latch clear the byte is echoed and `EV5` logged; with it set the
byte replaces the store byte at base plus offset, or is rejected with `EV9` out of range. -/
def programByte (s : State) (b : Byte) : State :=
  State.countDataByte <|
    if s.wel then
      match s.storeWrite s.op.effectiveAddress b with
      | some t => t.respondUnspec
      | none => (s.emit (.boundsProgram s.op.effectiveAddress b)).respondUnspec
    else (s.emit (.permProgram b)).respond b

/-- A program transaction: the opcode byte, the address phase, the data phase. -/
def runProgram (address data : List Byte) (s : State) : State :=
  data.foldl programByte (address.foldl addressByte (s.beginOperation .program))

/-- PP (R135). -/
def execPp (address data : List Byte) (s : State) : Host.Outcome State Fault Refusal :=
  .next (runProgram address data s)

/-- DIFP (R136). -/
def execDifp (address data : List Byte) (s : State) : Host.Outcome State Fault Refusal :=
  .next (runProgram address data s)

/-- EDIFP (R137). -/
def execEdifp (address data : List Byte) (s : State) : Host.Outcome State Fault Refusal :=
  .next (runProgram address data s)

/-- QIFP (R138). -/
def execQifp (address data : List Byte) (s : State) : Host.Outcome State Fault Refusal :=
  .next (runProgram address data s)

/-- EQIFP (R139). -/
def execEqifp (address data : List Byte) (s : State) : Host.Outcome State Fault Refusal :=
  .next (runProgram address data s)

end Sys2Proof.Machine
end

