-- ==== Sys2Proof/Machine/Read.lean ====
section
/-! DEFINITION. READ, FAST_READ, DOFR, DIOFR, QOFR and QIOFR (spec/43_read.md R120 to R129). -/

namespace Sys2Proof.Machine

/-- `HandleRead` (R120): the store byte at base plus offset, the filler and `EV8` out of range. The
byte sent is ignored. -/
def readByte (s : State) (_sent : Byte) : State :=
  State.countDataByte <|
    match s.storeRead s.op.effectiveAddress with
    | some v => s.respond v
    | none => (s.emit (.boundsRead s.op.effectiveAddress)).respond s.cfg.readFiller

/-- A read transaction: the opcode byte, the address phase, the data phase. There is no dummy byte
between the last two (R122). -/
def runRead (address sent : List Byte) (s : State) : State :=
  sent.foldl readByte (address.foldl addressByte (s.beginOperation .read))

/-- READ (R124). -/
def execRead (address sent : List Byte) (s : State) : Host.Outcome State Fault Refusal :=
  .next (runRead address sent s)

/-- FAST_READ (R125). -/
def execFastRead (address sent : List Byte) (s : State) : Host.Outcome State Fault Refusal :=
  .next (runRead address sent s)

/-- DOFR (R126). -/
def execDofr (address sent : List Byte) (s : State) : Host.Outcome State Fault Refusal :=
  .next (runRead address sent s)

/-- DIOFR (R127). -/
def execDiofr (address sent : List Byte) (s : State) : Host.Outcome State Fault Refusal :=
  .next (runRead address sent s)

/-- QOFR (R128). -/
def execQofr (address sent : List Byte) (s : State) : Host.Outcome State Fault Refusal :=
  .next (runRead address sent s)

/-- QIOFR (R129). -/
def execQiofr (address sent : List Byte) (s : State) : Host.Outcome State Fault Refusal :=
  .next (runRead address sent s)

end Sys2Proof.Machine
end

