-- ==== Sys2Proof/Machine/RegisterRead.lean ====
section
/-! DEFINITION. RDSR, RFSR, RDVCR, RDNVCR and RDVECR (spec/46_register_read.md R150 to R161). -/

namespace Sys2Proof.Machine

/-- `HandleReadRegister` (R150): one-byte registers repeat (R151); the two-byte register gives its low
byte, its high byte, then the filler (R152). -/
def State.registerByte (s : State) (r : RegisterId) (i : Nat) : Byte :=
  match r with
  | .status => s.statusRegister
  | .flagStatus => s.flagStatusRegister
  | .volatileConfig => s.vcr
  | .enhancedVolatileConfig => s.evcr
  | .nonVolatileConfig =>
    if i = 0 then lowByte s.nvcr else if i = 1 then highByte s.nvcr else s.cfg.readFiller

/-- A data byte of a register read; the byte sent is ignored. -/
def readRegisterByte (r : RegisterId) (s : State) (_sent : Byte) : State :=
  State.countDataByte (s.respond (s.registerByte r s.op.bytesHandledInDataPhase))

/-- A register-read transaction: the opcode byte, then its data bytes. -/
def runReadRegister (r : RegisterId) (sent : List Byte) (s : State) : State :=
  sent.foldl (readRegisterByte r) (s.beginOperation (.readRegister r))

/-- RDSR (R157). -/
def execRdsr (sent : List Byte) (s : State) : Host.Outcome State Fault Refusal :=
  .next (runReadRegister .status sent s)

/-- RFSR (R158). -/
def execRfsr (sent : List Byte) (s : State) : Host.Outcome State Fault Refusal :=
  .next (runReadRegister .flagStatus sent s)

/-- RDVCR (R159). -/
def execRdvcr (sent : List Byte) (s : State) : Host.Outcome State Fault Refusal :=
  .next (runReadRegister .volatileConfig sent s)

/-- RDNVCR (R160). -/
def execRdnvcr (sent : List Byte) (s : State) : Host.Outcome State Fault Refusal :=
  .next (runReadRegister .nonVolatileConfig sent s)

/-- RDVECR (R161). -/
def execRdvecr (sent : List Byte) (s : State) : Host.Outcome State Fault Refusal :=
  .next (runReadRegister .enhancedVolatileConfig sent s)

end Sys2Proof.Machine
end

