-- ==== Sys2Proof/Machine/RegisterWrite.lean ====
section
/-! DEFINITION. WRSR, WRVCR, WRNVCR and WRVECR (spec/47_register_write.md R165 to R178). -/

namespace Sys2Proof.Machine

/-- The write or the rejection of `HandleWriteRegister` (R165), for data byte `i`: first whether the
register can be written, then the latch, then the byte count (R187). -/
def State.writeRegister (s : State) (r : RegisterId) (i : Nat) (b : Byte) : State :=
  match r with
  | .status => s.emit (.regNotWritable .status b)
  | .flagStatus => s.emit (.regNotWritable .flagStatus b)
  | .volatileConfig =>
    if !s.wel then s.emit (.permRegWrite .volatileConfig b)
    else if 1 ≤ i then s.emit (.regByteCount .volatileConfig i)
    else { s with vcr := b }
  | .nonVolatileConfig =>
    if !s.wel then s.emit (.permRegWrite .nonVolatileConfig b)
    else if 2 ≤ i then s.emit (.regByteCount .nonVolatileConfig i)
    else if i = 0 then { s with nvcr := withLowByte s.nvcr b }
    else { s with nvcr := withHighByte s.nvcr b }
  | .enhancedVolatileConfig =>
    if 1 ≤ i then s.emit (.regByteCount .enhancedVolatileConfig i)
    else { s with evcr := b }

/-- A data byte of a register write. -/
def writeRegisterByte (r : RegisterId) (s : State) (b : Byte) : State :=
  State.countDataByte (s.writeRegister r s.op.bytesHandledInDataPhase b).respondUnspec

/-- A register-write transaction: the opcode byte, then its data bytes. -/
def runWriteRegister (r : RegisterId) (data : List Byte) (s : State) : State :=
  data.foldl (writeRegisterByte r) (s.beginOperation (.writeRegister r))

/-- WRSR (R175). -/
def execWrsr (data : List Byte) (s : State) : Host.Outcome State Fault Refusal :=
  .next (runWriteRegister .status data s)

/-- WRVCR (R176). -/
def execWrvcr (data : List Byte) (s : State) : Host.Outcome State Fault Refusal :=
  .next (runWriteRegister .volatileConfig data s)

/-- WRNVCR (R177). -/
def execWrnvcr (data : List Byte) (s : State) : Host.Outcome State Fault Refusal :=
  .next (runWriteRegister .nonVolatileConfig data s)

/-- WRVECR (R178). -/
def execWrvecr (data : List Byte) (s : State) : Host.Outcome State Fault Refusal :=
  .next (runWriteRegister .enhancedVolatileConfig data s)

end Sys2Proof.Machine
end

