-- ==== Sys2Proof/Machine/Dispatch.lean ====
section
/-! DEFINITION. The meaning of each instruction, one arm per row of spec/opcode_table.json: what the
block does on the instruction's bytes, one after the other, from the opcode byte on
(notes/assumptions/14.md). -/

namespace Sys2Proof.Machine

def exec (i : Instr) (s : State) : Host.Outcome State Fault Refusal :=
  match i with
  | .rdid2 sent => Sys2Proof.Machine.execRdid2 sent s
  | .rdid sent => Sys2Proof.Machine.execRdid sent s
  | .miordid sent => Sys2Proof.Machine.execMiordid sent s
  | .read address sent => Sys2Proof.Machine.execRead address sent s
  | .fastRead address sent => Sys2Proof.Machine.execFastRead address sent s
  | .dofr address sent => Sys2Proof.Machine.execDofr address sent s
  | .diofr address sent => Sys2Proof.Machine.execDiofr address sent s
  | .qofr address sent => Sys2Proof.Machine.execQofr address sent s
  | .qiofr address sent => Sys2Proof.Machine.execQiofr address sent s
  | .pp address data => Sys2Proof.Machine.execPp address data s
  | .difp address data => Sys2Proof.Machine.execDifp address data s
  | .edifp address data => Sys2Proof.Machine.execEdifp address data s
  | .qifp address data => Sys2Proof.Machine.execQifp address data s
  | .eqifp address data => Sys2Proof.Machine.execEqifp address data s
  | .se address => Sys2Proof.Machine.execSe address s
  | .de address => Sys2Proof.Machine.execDe address s
  | .wren => Sys2Proof.Machine.execWren s
  | .wrdi => Sys2Proof.Machine.execWrdi s
  | .rdsr sent => Sys2Proof.Machine.execRdsr sent s
  | .rfsr sent => Sys2Proof.Machine.execRfsr sent s
  | .rdvcr sent => Sys2Proof.Machine.execRdvcr sent s
  | .rdnvcr sent => Sys2Proof.Machine.execRdnvcr sent s
  | .rdvecr sent => Sys2Proof.Machine.execRdvecr sent s
  | .wrsr data => Sys2Proof.Machine.execWrsr data s
  | .wrvcr data => Sys2Proof.Machine.execWrvcr data s
  | .wrnvcr data => Sys2Proof.Machine.execWrnvcr data s
  | .wrvecr data => Sys2Proof.Machine.execWrvecr data s

end Sys2Proof.Machine
end

