-- ==== Sys2Proof/Machine/Transaction.lean ====
section
/-! DEFINITION. The transaction state machine outside the opcode decode: the data phase
(spec/40_transaction.md R93), the byte after an erase (R94), `END` (R95, R96) and `RESET`
(spec/70_reset_and_hazards.md R200). -/

namespace Sys2Proof.Machine

/-- `BYTE(b)` in `InDataPhase` (R93): the handler of the operation's kind, then the count. No run gets
here with an operation of kind `None` or `Erase` (R24 item 4; notes/assumptions/7.md). -/
def dataByte (s : State) (b : Byte) : State :=
  match s.op.kind with
  | .read => readByte s b
  | .identify => identifyByte s b
  | .program => programByte s b
  | .readRegister r => readRegisterByte r s b
  | .writeRegister r => writeRegisterByte r s b
  | .none => s.respondUnspec.countDataByte
  | .erase _ => s.respondUnspec.countDataByte

/-- `BYTE(b)` in `NoDataReady` (R94): ignored. -/
def ignoredByte (s : State) (_b : Byte) : State :=
  s.respondUnspec

/-- An opcode byte that spells no instruction (R91). An unrecognized one is logged (R80); one that a
map binds to a write of the flag-status register starts that write (R78, R166). -/
def undecodedByte (why : DecodeReject) (s : State) : State :=
  match why with
  | .flagStatusWrite _ => s.beginOperation (.writeRegister .flagStatus)
  | .unrecognized b => State.respondUnspec (State.emit { s with opcodeSeen := true } (.decodeFail b))
  | .noByte => s

/-- The anomalies `END` finds (R96). The three cases exclude each other in every reachable state
(notes/assumptions/11.md). -/
def State.endAnomalies (s : State) : List Anomaly :=
  (if s.fsm = .accAddrData ∨ s.fsm = .accAddrNoData then
    [.endMidAddress s.op.kind s.op.addressBytesReceived s.op.addressLength] else [])
  ++ (if s.opcodeSeen then [] else [.endNoOpcode])
  ++ (match s.op.kind with
    | .writeRegister r =>
      if registerWritable r ∧ s.op.bytesHandledInDataPhase < registerBytes r then
        [.regByteCount r s.op.bytesHandledInDataPhase] else []
    | _ => [])

/-- `END` in any state (R95). -/
def endTransaction (s : State) : State :=
  { s with
    log := s.log ++ s.endAnomalies
    wel := if s.op.kind.mutating then false else s.wel
    op := DecodedOperation.empty
    fsm := .idle
    opcodeSeen := false }

/-- `RESET` in any state (R200). The store is not touched. -/
def deviceReset (s : State) : State :=
  { s with
    fsm := .idle
    op := DecodedOperation.empty
    opcodeSeen := false
    wel := s.cfg.srReset.getLsbD s.cfg.welBit
    vcr := s.cfg.vcrReset
    nvcr := s.cfg.nvcrReset
    evcr := s.cfg.evcrReset }

/-- The power-on state of a block constructed with a configuration (R203): the state `RESET` produces,
with `store = INIT_STORE`. -/
def powerOn (c : Cfg) : State :=
  deviceReset { State.reset with cfg := c, store := Cfg.initialStore c }

end Sys2Proof.Machine
end

