-- ==== Sys2Proof/Machine/Fetch.lean ====
section
/-! DEFINITION. How a byte off the link is taken (spec/40_transaction.md R90): in `Idle` it is decoded
as an opcode and the instruction is executed as far as it has arrived; in any other state it belongs to
the operation in flight. -/

namespace Sys2Proof.Machine

/-- `BYTE(b)` in `Idle` (R91): the byte is all of the instruction that has arrived. -/
def opcodeByte (b : Byte) (s : State) : Host.Outcome State Fault Refusal :=
  match decode s.cfg.opcodeMap s.addrLen [b] with
  | .instr i _ => exec i s
  | .rejected why => .next (undecodedByte why s)

/-- `BYTE(b)`, by the state of the machine alone (R90). -/
def linkByte (b : Byte) (s : State) : Host.Outcome State Fault Refusal :=
  match s.fsm with
  | .idle => opcodeByte b s
  | .accAddrData => .next (addressByte s b)
  | .accAddrNoData => .next (addressByte s b)
  | .inDataPhase => .next (dataByte s b)
  | .noDataReady => .next (ignoredByte s b)

/-- One input event, off the link already (R100). -/
def linkEvent (e : Event) (s : State) : Host.Outcome State Fault Refusal :=
  match e with
  | .byte b => linkByte b s
  | .endTransaction => .next (endTransaction s)
  | .reset => .next (deviceReset s)

end Sys2Proof.Machine
end

