-- ==== Sys2Proof/Machine/Step.lean ====
section
/-! DEFINITION. The step: one input event (spec/00_scope.md R10, spec/40_transaction.md R90), taken off
the link. -/

namespace Sys2Proof.Machine

/-- One step processes the oldest event on the link. With no event on it the block waits: nothing
happens (notes/assumptions/4.md). -/
def step (s : State) : Host.Outcome State Fault Refusal :=
  match s.link with
  | [] => .next s
  | e :: rest => linkEvent e { s with link := rest }

/-- `s` with a table word's bytes as the next events on the link, and the machine awaiting an opcode:
the next step decodes the word's first byte and executes its instruction. -/
def State.withFetchWord (s : State) (nbits w : Nat) : State :=
  { s with
    fsm := .idle
    op := DecodedOperation.empty
    link := (wordBytes (nbits / 8) w).map Event.byte }

end Sys2Proof.Machine
end

