-- ==== Sys2Proof/Safety.lean ====
section
/-! DEFINITION. What claims about a run are stated in: the invariants of a reachable state
(spec/10_state.md R24, R41, R43), and what an instruction's data phase is expected to answer and to log. -/

namespace Sys2Proof.Machine

/-! ## Invariants -/

/-- The invariants of R24, item by item. -/
structure SequencerInv (s : State) : Prop where
  idle : s.fsm = .idle → s.op = DecodedOperation.empty
  accAddrData : s.fsm = .accAddrData →
    (s.op.kind = .read ∨ s.op.kind = .program) ∧
    (s.op.addressLength = 3 ∨ s.op.addressLength = 4) ∧
    s.op.addressBytesReceived < s.op.addressLength
  accAddrNoData : s.fsm = .accAddrNoData →
    (∃ g, s.op.kind = .erase g) ∧
    (s.op.addressLength = 3 ∨ s.op.addressLength = 4) ∧
    s.op.addressBytesReceived < s.op.addressLength
  inDataPhase : s.fsm = .inDataPhase →
    (s.op.kind = .read ∨ s.op.kind = .program ∨ s.op.kind = .identify ∨
      (∃ r, s.op.kind = .readRegister r) ∨ (∃ r, s.op.kind = .writeRegister r)) ∧
    s.op.addressBytesReceived = s.op.addressLength
  noDataReady : s.fsm = .noDataReady →
    (∃ g, s.op.kind = .erase g) ∧ s.op.addressBytesReceived = s.op.addressLength
  counting : 0 < s.op.bytesHandledInDataPhase → s.fsm = .inDataPhase
  address : s.op.accumulatedAddress < 2 ^ (8 * s.op.addressBytesReceived)

/-- The store is in canonical form and inside the address space (R41). -/
def StoreInv (s : State) : Prop :=
  Memory.wf s.cfg.erased s.cfg.capacity s.store

/-- Outside `Idle` an opcode has been issued (R43: every byte taken in `Idle` sets the ghost bit). -/
def OpcodeSeenInv (s : State) : Prop :=
  s.fsm ≠ .idle → s.opcodeSeen = true

/-! ## The image -/

/-- What `INIT_STORE`, cut to `CAPACITY` bytes, holds at an address (R61, R203): the byte of the last
cell that names it, and the erased byte where no cell does (notes/assumptions/13.md). -/
def Cfg.imageByte (c : Cfg) (a : Nat) : Byte :=
  if a < c.capacity then (c.initStore.reverse.lookup a).getD c.erased else c.erased

/-! ## Expected answers and anomalies -/

/-- The next `n` responses the spec fixes nothing about. -/
def State.unspecifiedRun (s : State) (n : Nat) : List Byte :=
  (List.range n).map fun k => State.unspecifiedByte { s with freeIndex := s.freeIndex + k }

/-- What a read of address `a` answers (R120): the store byte, or the filler out of range. -/
def State.readAnswer (s : State) (a : Nat) : Byte :=
  if a < s.cfg.capacity then s.byteAt a else s.cfg.readFiller

/-- The answers to `n` data bytes of a read from `base` (R121). -/
def State.readAnswers (s : State) (base n : Nat) : List Byte :=
  (List.range n).map fun i => s.readAnswer (base + i)

/-- One `EV8` for each of them that is out of range (R120). -/
def State.readAnomalies (s : State) (base n : Nat) : List Anomaly :=
  (List.range n).flatMap fun i =>
    if base + i < s.cfg.capacity then [] else [.boundsRead (base + i)]

/-- The answers to `n` data bytes of an identification (R115). -/
def State.identifyAnswers (s : State) (n : Nat) : List Byte :=
  (List.range n).map fun i => (s.cfg.idTable[i]?).getD s.cfg.readFiller

/-- One `EV11` for each of them past the table's end (R115). -/
def State.identifyAnomalies (s : State) (n : Nat) : List Anomaly :=
  (List.range n).flatMap fun i => if i < s.cfg.idTable.length then [] else [.idOverrun i]

/-- One `EV9` for each byte programmed out of range (R134). -/
def State.programAnomalies (s : State) (base : Nat) (data : List Byte) : List Anomaly :=
  (data.zipIdx base).flatMap fun (v, a) =>
    if a < s.cfg.capacity then [] else [.boundsProgram a v]

/-- One `EV4` for each of `n` data bytes from index `width` on (R168). -/
def extraByteAnomalies (r : RegisterId) (width n : Nat) : List Anomaly :=
  (List.range n).flatMap fun i => if i < width then [] else [.regByteCount r i]

/-- The record of an operation with no address phase after `n` data bytes. -/
def operationWithData (kind : OpKind) (n : Nat) : DecodedOperation :=
  { DecodedOperation.empty with kind := kind, bytesHandledInDataPhase := n }

/-- The record of an operation after the address bytes `address` of `addrLen` and `n` data bytes. -/
def operationAt (kind : OpKind) (addrLen : Nat) (address : List Byte) (n : Nat) : DecodedOperation where
  kind := kind
  addressLength := addrLen
  addressBytesReceived := address.length
  accumulatedAddress := addressValue address
  bytesHandledInDataPhase := n

end Sys2Proof.Machine
end

