-- ==== Sys2Proof/Certificates/Slice0/Obligations.lean ====
section
/-! DEFINITION. The statements for the provers. Each docstring names the rules of spec/ it rests on.
Four decisions of the spec's own stand behind many of them: a response written `unspecifiedRun` is one
the spec leaves open (D3; notes/assumptions/2.md), every data byte is counted (D16), `opcodeSeen` is the
spec's ghost bit (D22), and the address bytes are counted in `op` (D35; notes/assumptions/10.md). -/

open Sys2Proof Sys2Proof.Machine

/-! ## Encoding -/

/-- Decoding an encoded well-formed instruction gives it back, all of it, under every opcode map that
binds its opcode byte to its class and for every address length (R70, R72, R76, R78). -/
def Obligations.DecodeOfEncodeIsIdentity : Prop :=
  ∀ (map : OpcodeMap) (addrLen : Nat) (i : Instr), i.wf addrLen = true → i.boundBy map →
    decode map addrLen (encode i) = .instr i []

/-- Under the default map a byte run has one reading: what is decoded encodes back to the bytes it was
decoded from, and is well-formed (R70, R78). -/
def Obligations.EncodeOfDecodeGivesBytesBack : Prop :=
  ∀ (addrLen : Nat) (bytes rest : List Byte) (i : Instr),
    decode defaultOpcodeMap addrLen bytes = .instr i rest →
    encode i ++ rest = bytes ∧ i.wf addrLen = true

/-- The default map binds exactly the 27 opcode bytes of the instructions, to their classes; the other
229 bytes are unrecognized (R78, R80; the numbers and the choice of commands are the spec's own decisions
D1 and D2). -/
def Obligations.DefaultMapBindsTheTable : Prop :=
  (∀ i : Instr, i.boundBy defaultOpcodeMap) ∧
  (∀ b : Byte, opClassOf defaultOpcodeMap b ≠ .unrecognized →
    ∃ i : Instr, i.opcode = b ∧ i.opClass = opClassOf defaultOpcodeMap b) ∧
  ((List.range 256).filter fun n =>
    opClassOf defaultOpcodeMap (BitVec.ofNat 8 n) == .unrecognized).length = 229

/-- Words written out from the examples of R85, in 3-byte and in 4-byte mode, decode to the
instructions they stand for (the opcode numbers are the spec's own decision D1). -/
def Obligations.ExampleWordsDecode : Prop :=
  decode defaultOpcodeMap 3 [0x02, 0x00, 0x00, 0x10, 0xAB]
      = .instr (.pp [0x00, 0x00, 0x10] [0xAB]) [] ∧
  decode defaultOpcodeMap 3 [0x03, 0x00, 0x00, 0x10, 0x00]
      = .instr (.read [0x00, 0x00, 0x10] [0x00]) [] ∧
  decode defaultOpcodeMap 3 [0x06] = .instr .wren [] ∧
  decode defaultOpcodeMap 3 [0xD8, 0x02, 0xAB, 0xCD] = .instr (.se [0x02, 0xAB, 0xCD]) [] ∧
  decode defaultOpcodeMap 3 [0xB5, 0x00, 0x00, 0x00] = .instr (.rdnvcr [0x00, 0x00, 0x00]) [] ∧
  decode defaultOpcodeMap 4 [0x02, 0x00, 0x00, 0x00, 0x20, 0x5A]
      = .instr (.pp [0x00, 0x00, 0x00, 0x20] [0x5A]) []

/-! ## The step -/

/-- In `Idle` the byte on the link is decoded, and the step is the instruction's meaning (R90, R91). -/
def Obligations.StepRunsDecodedInstruction : Prop :=
  ∀ (s : State) (b : Byte) (rest : List Event) (i : Instr) (left : List Byte),
    s.fsm = .idle → s.link = .byte b :: rest →
    decode s.cfg.opcodeMap s.addrLen [b] = .instr i left →
    step s = exec i { s with link := rest }

/-- A row's word placed by `withFetchWord` is run by the very next step. -/
def Obligations.FetchedTableWordRuns : Prop :=
  ∀ (s : State) (w : Nat) (i : Instr),
    s.cfg.opcodeMap = defaultOpcodeMap → decodeTableWord 8 w = some i →
    step (s.withFetchWord 8 w)
      = exec i { s with fsm := .idle, op := DecodedOperation.empty, link := [] }

/-- As many steps as an instruction has bytes, on a link that begins with those bytes, are exactly the
meaning of the whole instruction: the byte-wise machine of R91 to R93 refines `exec`. -/
def Obligations.RunOfInstructionBytesIsExec : Prop :=
  ∀ (s : State) (i : Instr) (rest : List Event),
    s.fsm = .idle → i.wf s.addrLen = true → i.boundBy s.cfg.opcodeMap →
    s.link = (encode i).map Event.byte ++ rest →
    Host.Core.run core (encode i).length s = exec i { s with link := rest }

/-- Every step answers a next state, in every state and for every event: no fault, no refusal; and every
`BYTE` step gives a response byte (R181). -/
def Obligations.StepAlwaysAnswersNext : Prop :=
  ∀ s : State, ∃ t, step s = .next t ∧
    ∀ b rest, s.link = .byte b :: rest → ∃ v, t.responses = s.responses ++ [v]

/-- A `BYTE` step puts out exactly one response byte; `END` and `RESET` put out none, nor does a step
with no event pending; the event is taken off the link and the configuration stays (R10). -/
def Obligations.OneResponsePerByteEvent : Prop :=
  ∀ s t : State, step s = .next t →
    t.cfg = s.cfg ∧ t.link = s.link.tail ∧
    (∀ b rest, s.link = .byte b :: rest → ∃ v, t.responses = s.responses ++ [v]) ∧
    ((∀ b rest, s.link ≠ .byte b :: rest) → t.responses = s.responses)

/-- A step of a reachable state logs at most one anomaly, and never rewrites the log (R180). -/
def Obligations.AtMostOneAnomalyPerStep : Prop :=
  ∀ s t : State, SequencerInv s → OpcodeSeenInv s → step s = .next t →
    ∃ logged : List Anomaly, t.log = s.log ++ logged ∧ logged.length ≤ 1

/-! ## Invariants -/

/-- The state after reset meets every invariant. -/
def Obligations.ResetMeetsInvariants : Prop :=
  SequencerInv State.reset ∧ StoreInv State.reset ∧ OpcodeSeenInv State.reset

/-- The seven invariants of R24 hold at power-on under every configuration, and every step keeps them. -/
def Obligations.StepKeepsSequencerInvariants : Prop :=
  (∀ c : Cfg, SequencerInv (powerOn c)) ∧
  ∀ s t : State, SequencerInv s → step s = .next t → SequencerInv t

/-- The store is in canonical form and inside the address space at power-on under every configuration,
whatever its image, and every step keeps it so (R41, R52 to R54, R61; the canonical form and the image as
a list of cells are the model's own, notes/assumptions/6.md and 13.md). -/
def Obligations.StepKeepsStoreCanonical : Prop :=
  (∀ c : Cfg, StoreInv (powerOn c)) ∧
  ∀ s t : State, StoreInv s → step s = .next t → StoreInv t

/-- Every step keeps it that outside `Idle` an opcode has been issued (R43). -/
def Obligations.StepKeepsOpcodeSeen : Prop :=
  ∀ s t : State, OpcodeSeenInv s → step s = .next t → OpcodeSeenInv t

/-- Two stores in canonical form that read alike are the same data (the model's canonical form,
notes/assumptions/6.md). -/
def Obligations.CanonicalStoresAreDeterminedByReads : Prop :=
  ∀ (blank : Byte) (capacity : Nat) (m n : Memory),
    Memory.wf blank capacity m → Memory.wf blank capacity n →
    (∀ a, Memory.read blank m a = Memory.read blank n a) → m = n

/-- The three primitives of the store: a read is the byte below the capacity; a write replaces that one
byte; a fill writes its whole range or nothing; an access past the end is rejected (R52 to R54). None of
them changes anything but the store. That a write and a fill keep the store in canonical form (`StoreInv`)
is the model's own clause (notes/assumptions/6.md, DEDUCED). -/
def Obligations.StorePrimitivesAreBounded : Prop :=
  ∀ (s : State) (a n : Nat) (v : Byte), StoreInv s →
    (s.storeRead a = if a < s.cfg.capacity then some (s.byteAt a) else none) ∧
    (s.cfg.capacity ≤ a → s.storeWrite a v = none) ∧
    (a < s.cfg.capacity → ∃ t, s.storeWrite a v = some t ∧ StoreInv t ∧
      t = { s with store := t.store } ∧ ∀ x, t.byteAt x = if x = a then v else s.byteAt x) ∧
    (s.cfg.capacity < a + n → s.storeFill a n v = none) ∧
    (a + n ≤ s.cfg.capacity → ∃ t, s.storeFill a n v = some t ∧ StoreInv t ∧
      t = { s with store := t.store } ∧
      ∀ x, t.byteAt x = if a ≤ x ∧ x < a + n then v else s.byteAt x)

/-! ## Reset -/

/-- `RESET`, in any state: the state machine, the latch and the registers take their reset values, the
store and everything else stay as they are (R200). -/
def Obligations.ResetEventRestoresRegisters : Prop :=
  ∀ (s : State) (rest : List Event), s.link = .reset :: rest →
    step s = .next { s with
      link := rest, fsm := .idle, op := DecodedOperation.empty, opcodeSeen := false,
      wel := s.cfg.srReset.getLsbD s.cfg.welBit, vcr := s.cfg.vcrReset,
      nvcr := s.cfg.nvcrReset, evcr := s.cfg.evcrReset }

/-- The values of the state after reset, and of the power-on state of every configuration: R40's table,
with `INIT_STORE` cut to `CAPACITY` bytes in the store (R61, R203). The numbers are the spec's own
decisions: the views D4 and D6, the addressing mode D5, the register values D8, the erased store D12,
power-on D29. The model's are the default configuration (notes/assumptions/1.md, PRESUMED), the capacity
(3.md, DESIGN CHOICE), the erased byte at an unlisted address, on which the 0xFF of every store byte
rests (6.md, DEDUCED), the image as a list of cells (13.md, DESIGN CHOICE), and the empty link, outputs
and free-value counter (2.md, 4.md and 5.md, DESIGN CHOICE). -/
def Obligations.ResetStateValues : Prop :=
  (State.reset.fsm = .idle ∧ State.reset.op = DecodedOperation.empty ∧
    State.reset.opcodeSeen = false ∧ State.reset.wel = false ∧ State.reset.vcr = 0xFB ∧
    State.reset.nvcr = 0xFFFF ∧ State.reset.evcr = 0xFF ∧ State.reset.addrLen = 3 ∧
    State.reset.statusRegister = 0x00 ∧ State.reset.flagStatusRegister = 0x00 ∧
    (∀ a, State.reset.byteAt a = 0xFF) ∧ State.reset = powerOn Cfg.cautious) ∧
  ∀ c : Cfg,
    powerOn c = { State.reset with
      cfg := c, wel := c.srReset.getLsbD c.welBit, vcr := c.vcrReset, nvcr := c.nvcrReset,
      evcr := c.evcrReset, store := (powerOn c).store } ∧
    ∀ a, (powerOn c).byteAt a = Cfg.imageByte c a

/-! ## The transaction state machine -/

/-- An unrecognized opcode byte is logged and changes no register and no store byte; the machine stays
in `Idle` (R80, R91; that it stays there is the spec's own decision D13). -/
def Obligations.UnrecognizedOpcodeIsLogged : Prop :=
  ∀ (s : State) (b : Byte) (rest : List Event),
    s.fsm = .idle → s.link = .byte b :: rest →
    opClassOf s.cfg.opcodeMap b = .unrecognized →
    step s = .next { s with
      link := rest, opcodeSeen := true, log := s.log ++ [.decodeFail b],
      responses := s.responses ++ s.unspecifiedRun 1, freeIndex := s.freeIndex + 1 }

/-- An address byte that is not the last is appended, most significant first, and counted; one that is
the last opens the data phase of a Read or Program (R92, R72). -/
def Obligations.AddressByteIsAppended : Prop :=
  ∀ (s : State) (b : Byte) (rest : List Event), s.link = .byte b :: rest →
    (s.fsm = .accAddrData ∨ s.fsm = .accAddrNoData) →
    (s.fsm = .accAddrData ∨ s.op.addressBytesReceived + 1 ≠ s.op.addressLength) →
    step s = .next { s with
      link := rest
      fsm := if s.op.addressBytesReceived + 1 = s.op.addressLength then .inDataPhase else s.fsm
      op := { s.op with
        accumulatedAddress := s.op.accumulatedAddress * 256 + b.toNat
        addressBytesReceived := s.op.addressBytesReceived + 1 }
      responses := s.responses ++ s.unspecifiedRun 1
      freeIndex := s.freeIndex + 1 }

/-- In the data phase every byte is counted, whatever comes of it, and the machine stays there; in the
other states no byte makes the count grow (R26, R93; the spec's own decision D16). -/
def Obligations.EveryDataByteIsCounted : Prop :=
  ∀ (s t : State) (b : Byte) (rest : List Event), s.link = .byte b :: rest → step s = .next t →
    (s.fsm = .inDataPhase → t.fsm = .inDataPhase ∧
      t.op = { s.op with bytesHandledInDataPhase := s.op.bytesHandledInDataPhase + 1 }) ∧
    (s.fsm ≠ .inDataPhase →
      t.op.bytesHandledInDataPhase = 0 ∨
      t.op.bytesHandledInDataPhase = s.op.bytesHandledInDataPhase)

/-- A byte after a completed erase is answered and changes nothing (R94; the spec's own decision D14). -/
def Obligations.ByteAfterEraseIsIgnored : Prop :=
  ∀ (s : State) (b : Byte) (rest : List Event),
    s.fsm = .noDataReady → s.link = .byte b :: rest →
    step s = .next { s with
      link := rest, responses := s.responses ++ s.unspecifiedRun 1, freeIndex := s.freeIndex + 1 }

/-- `END`, in any state: the latch is cleared exactly after a Program, an Erase or a write to the
volatile configuration register, whatever came of it; the machine returns to `Idle` with an empty
operation; nothing else changes but the log (R95; the spec's own decision D15). -/
def Obligations.EndClosesTheTransaction : Prop :=
  ∀ (s : State) (rest : List Event), s.link = .endTransaction :: rest →
    ∃ t, step s = .next t ∧
      t = { s with
        link := rest, fsm := .idle, op := DecodedOperation.empty, opcodeSeen := false,
        wel := t.wel, log := s.log ++ s.endAnomalies } ∧
      ((s.op.kind = .program ∨ (∃ g, s.op.kind = .erase g) ∨
          s.op.kind = .writeRegister .volatileConfig) → t.wel = false) ∧
      (¬(s.op.kind = .program ∨ (∃ g, s.op.kind = .erase g) ∨
          s.op.kind = .writeRegister .volatileConfig) → t.wel = s.wel)

/-- The anomalies `END` logs in a reachable state: an address cut short, no opcode byte since the last
`END` or `RESET`, a register write with too few bytes; otherwise none (R96; the spec's own decisions D22
and D32). -/
def Obligations.EndLogsWhatItFinds : Prop :=
  ∀ (s t : State) (rest : List Event), SequencerInv s → OpcodeSeenInv s →
    s.link = .endTransaction :: rest → step s = .next t →
    (s.fsm = .accAddrData ∨ s.fsm = .accAddrNoData → t.log = s.log ++
      [.endMidAddress s.op.kind s.op.addressBytesReceived s.op.addressLength]) ∧
    (s.opcodeSeen = false → t.log = s.log ++ [.endNoOpcode]) ∧
    (∀ r, s.op.kind = .writeRegister r →
      r = .volatileConfig ∨ r = .nonVolatileConfig ∨ r = .enhancedVolatileConfig →
      s.op.bytesHandledInDataPhase < (if r = .nonVolatileConfig then 2 else 1) →
      t.log = s.log ++ [.regByteCount r s.op.bytesHandledInDataPhase]) ∧
    (s.fsm ≠ .accAddrData → s.fsm ≠ .accAddrNoData → s.opcodeSeen = true →
      (∀ r, s.op.kind = .writeRegister r →
        r = .status ∨ r = .flagStatus ∨
        (if r = .nonVolatileConfig then 2 else 1) ≤ s.op.bytesHandledInDataPhase) →
      t.log = s.log)

/-! ## The latch commands -/

/-- WREN sets the latch at once and creates no operation (R110, R111). -/
def Obligations.WrenSetsTheLatch : Prop :=
  ∀ s : State, exec .wren s = .next { s with
    opcodeSeen := true, wel := true,
    responses := s.responses ++ s.unspecifiedRun 1, freeIndex := s.freeIndex + 1 }

/-- WRDI clears the latch at once and creates no operation (R110, R112). -/
def Obligations.WrdiClearsTheLatch : Prop :=
  ∀ s : State, exec .wrdi s = .next { s with
    opcodeSeen := true, wel := false,
    responses := s.responses ++ s.unspecifiedRun 1, freeIndex := s.freeIndex + 1 }

/-! ## Results, instruction by instruction -/

/-- RDID, RDID2 and MIORDID answer the identification table from its first byte on, then the filler
with one `EV11` a byte, and change nothing else (R115, R117, R118, R119). -/
def Obligations.IdentifyAnswersTheTable : Prop :=
  ∀ (s : State) (sent : List Byte) (i : Instr),
    i ∈ [Instr.rdid sent, .rdid2 sent, .miordid sent] →
    exec i s = .next { s with
      fsm := .inDataPhase, opcodeSeen := true, op := operationWithData .identify sent.length,
      responses := s.responses ++ s.unspecifiedRun 1 ++ s.identifyAnswers sent.length,
      log := s.log ++ s.identifyAnomalies sent.length, freeIndex := s.freeIndex + 1 }

/-- The six read instructions answer the store's bytes from the big-endian address on, with no dummy
byte, the filler with one `EV8` a byte out of range, and change nothing else (R120 to R129; that no dummy
byte is taken and no address wraps are the spec's own decisions D28 and D23). -/
def Obligations.ReadAnswersStoreBytes : Prop :=
  ∀ (s : State) (address sent : List Byte) (i : Instr),
    i ∈ [Instr.read address sent, .fastRead address sent, .dofr address sent,
      .diofr address sent, .qofr address sent, .qiofr address sent] →
    address.length = s.addrLen →
    exec i s = .next { s with
      fsm := .inDataPhase, opcodeSeen := true,
      op := operationAt .read s.addrLen address sent.length,
      responses := s.responses ++ s.unspecifiedRun (1 + s.addrLen)
        ++ s.readAnswers (addressValue address) sent.length,
      log := s.log ++ s.readAnomalies (addressValue address) sent.length,
      freeIndex := s.freeIndex + (1 + s.addrLen) }

/-- With the latch set, the five program instructions put data byte `i` at base plus `i` where that is
inside the store, log one `EV9` for each byte that is not, and change no other byte of the store and
nothing else; the latch stays set until `END` (R130, R132 to R139). That the stored byte replaces the
old one (R132, R67), that base plus `i` does not wrap (R55) and that the response to an accepted byte is
left open (R132) are the spec's own decisions D27, D23 and D3 (notes/assumptions/10.md and 2.md). -/
def Obligations.ProgramStoresItsBytes : Prop :=
  ∀ (s : State) (address data : List Byte) (i : Instr),
    i ∈ [Instr.pp address data, .difp address data, .edifp address data,
      .qifp address data, .eqifp address data] →
    StoreInv s → address.length = s.addrLen → s.wel = true →
    ∃ t, exec i s = .next t ∧
      t = { s with
        fsm := .inDataPhase, opcodeSeen := true,
        op := operationAt .program s.addrLen address data.length, store := t.store,
        responses := s.responses ++ s.unspecifiedRun (1 + s.addrLen + data.length),
        log := s.log ++ s.programAnomalies (addressValue address) data,
        freeIndex := s.freeIndex + (1 + s.addrLen + data.length) } ∧
      ∀ a, t.byteAt a =
        if addressValue address ≤ a ∧ a < addressValue address + data.length ∧ a < s.cfg.capacity
        then data.getD (a - addressValue address) 0 else s.byteAt a

/-- With the latch clear, the five program instructions store nothing: each data byte is echoed and
logged as `EV5`, in range or not (R130, R131, R187; that the latch is tested before the bounds is the
spec's own decision D20). -/
def Obligations.ProgramWithoutLatchEchoes : Prop :=
  ∀ (s : State) (address data : List Byte) (i : Instr),
    i ∈ [Instr.pp address data, .difp address data, .edifp address data,
      .qifp address data, .eqifp address data] →
    address.length = s.addrLen → s.wel = false →
    exec i s = .next { s with
      fsm := .inDataPhase, opcodeSeen := true,
      op := operationAt .program s.addrLen address data.length,
      responses := s.responses ++ s.unspecifiedRun (1 + s.addrLen) ++ data,
      log := s.log ++ data.map .permProgram, freeIndex := s.freeIndex + (1 + s.addrLen) }

/-- SE with the latch set and an address inside the store fills the sector of that address, all of it
and nothing else, with the erased value, aligned or not (R143, R147). -/
def Obligations.SectorEraseFillsItsSector : Prop :=
  ∀ (s : State) (address : List Byte),
    s.cfg.wf = true → address.length = s.addrLen → s.wel = true →
    addressValue address < s.cfg.capacity →
    ∃ t, exec (.se address) s = .next t ∧
      t = { s with
        fsm := .noDataReady, opcodeSeen := true,
        op := operationAt (.erase .sector) s.addrLen address 0, store := t.store,
        responses := s.responses ++ s.unspecifiedRun (1 + s.addrLen),
        freeIndex := s.freeIndex + (1 + s.addrLen) } ∧
      ∀ a, t.byteAt a =
        if a / s.cfg.sectorSize = addressValue address / s.cfg.sectorSize
        then s.cfg.erased else s.byteAt a

/-- DE with the latch set fills the whole store with the erased value, whatever the address, even one
beyond the capacity (R144, R148; the spec's own decision D33). -/
def Obligations.DieEraseFillsTheStore : Prop :=
  ∀ (s : State) (address : List Byte),
    address.length = s.addrLen → s.wel = true →
    ∃ t, exec (.de address) s = .next t ∧
      t = { s with
        fsm := .noDataReady, opcodeSeen := true,
        op := operationAt (.erase .die) s.addrLen address 0, store := t.store,
        responses := s.responses ++ s.unspecifiedRun (1 + s.addrLen),
        freeIndex := s.freeIndex + (1 + s.addrLen) } ∧
      ∀ a, a < s.cfg.capacity → t.byteAt a = s.cfg.erased

/-- An erase that is turned away erases nothing: with the latch clear SE and DE log `EV6`, and with it
set SE beyond the capacity logs `EV10` (R141, R143; that the latch is tested first is the spec's own
decision D20). -/
def Obligations.RejectedEraseChangesNoByte : Prop :=
  ∀ (s : State) (address : List Byte) (g : EraseGranularity) (i : Instr),
    (i = .se address ∧ g = .sector) ∨ (i = .de address ∧ g = .die) →
    s.cfg.wf = true → address.length = s.addrLen →
    s.wel = false ∨ (g = .sector ∧ s.cfg.capacity ≤ addressValue address) →
    exec i s = .next { s with
      fsm := .noDataReady, opcodeSeen := true,
      op := operationAt (.erase g) s.addrLen address 0,
      responses := s.responses ++ s.unspecifiedRun (1 + s.addrLen),
      log := s.log ++ [if s.wel then .boundsErase (addressValue address)
        else .permErase g (addressValue address)],
      freeIndex := s.freeIndex + (1 + s.addrLen) }

/-- A Read, Program or Erase whose address is still incomplete has touched neither a register nor the
store (R25, R92). -/
def Obligations.IncompleteAddressDoesNothing : Prop :=
  ∀ (s : State) (address : List Byte) (kind : OpKind) (i : Instr),
    (kind = .read ∧ i ∈ [Instr.read address [], .fastRead address [], .dofr address [],
        .diofr address [], .qofr address [], .qiofr address []]) ∨
    (kind = .program ∧ i ∈ [Instr.pp address [], .difp address [], .edifp address [],
        .qifp address [], .eqifp address []]) ∨
    (kind = .erase .sector ∧ i = .se address) ∨ (kind = .erase .die ∧ i = .de address) →
    address.length < s.addrLen →
    exec i s = .next { s with
      fsm := kind.firstFsm, opcodeSeen := true, op := operationAt kind s.addrLen address 0,
      responses := s.responses ++ s.unspecifiedRun (1 + address.length),
      freeIndex := s.freeIndex + (1 + address.length) }

/-- RDSR, RFSR, RDVCR and RDVECR answer the register's one byte again for every byte sent, and change
nothing (R150, R151, R157, R158, R159, R161; for the two configuration registers the spec's own decision
D19). -/
def Obligations.OneByteRegistersRepeat : Prop :=
  ∀ (s : State) (sent : List Byte) (r : RegisterId) (v : Byte) (i : Instr),
    (i = .rdsr sent ∧ r = .status ∧ v = s.statusRegister) ∨
    (i = .rfsr sent ∧ r = .flagStatus ∧ v = s.flagStatusRegister) ∨
    (i = .rdvcr sent ∧ r = .volatileConfig ∧ v = s.vcr) ∨
    (i = .rdvecr sent ∧ r = .enhancedVolatileConfig ∧ v = s.evcr) →
    exec i s = .next { s with
      fsm := .inDataPhase, opcodeSeen := true,
      op := operationWithData (.readRegister r) sent.length,
      responses := s.responses ++ s.unspecifiedRun 1 ++ List.replicate sent.length v,
      freeIndex := s.freeIndex + 1 }

/-- RDNVCR answers the low byte, the high byte, then the configured filler, and changes nothing (R150,
R160). The filler is the parameter `READ_FILLER` of R6; with its default 0x00 this is R152. -/
def Obligations.NonVolatileReadLowThenHigh : Prop :=
  ∀ (s : State) (sent : List Byte),
    exec (.rdnvcr sent) s = .next { s with
      fsm := .inDataPhase, opcodeSeen := true,
      op := operationWithData (.readRegister .nonVolatileConfig) sent.length,
      responses := s.responses ++ s.unspecifiedRun 1 ++
        ([BitVec.ofNat 8 (s.nvcr.toNat % 256), BitVec.ofNat 8 (s.nvcr.toNat / 256)]
          ++ List.replicate (sent.length - 2) s.cfg.readFiller).take sent.length,
      freeIndex := s.freeIndex + 1 }

/-- WRSR changes nothing, the latch set or clear: each byte is logged as `EV12` (R166, R175). -/
def Obligations.StatusWriteIsRejected : Prop :=
  ∀ (s : State) (data : List Byte),
    exec (.wrsr data) s = .next { s with
      fsm := .inDataPhase, opcodeSeen := true,
      op := operationWithData (.writeRegister .status) data.length,
      responses := s.responses ++ s.unspecifiedRun (1 + data.length),
      log := s.log ++ data.map (.regNotWritable .status),
      freeIndex := s.freeIndex + (1 + data.length) }

/-- WRVCR with the latch set takes its first data byte and logs `EV4` for each further one; with the
latch clear it logs `EV7` for each and takes none (R167, R168, R176; the spec's own decisions D18 and
D20). -/
def Obligations.VolatileWriteTakesOneByte : Prop :=
  ∀ (s : State) (data : List Byte),
    exec (.wrvcr data) s = .next { s with
      fsm := .inDataPhase, opcodeSeen := true,
      op := operationWithData (.writeRegister .volatileConfig) data.length,
      vcr := if s.wel then data.headD s.vcr else s.vcr,
      responses := s.responses ++ s.unspecifiedRun (1 + data.length),
      log := s.log ++ (if s.wel then extraByteAnomalies .volatileConfig 1 data.length
        else data.map (.permRegWrite .volatileConfig)),
      freeIndex := s.freeIndex + (1 + data.length) }

/-- WRNVCR with the latch set takes the low byte, then the high byte, each at once, and logs `EV4` for
each further one; with the latch clear it logs `EV7` for each and takes none (R167 to R169, R177; byte
order and moment of effect are the spec's own decision D17). -/
def Obligations.NonVolatileWriteTakesTwoBytes : Prop :=
  ∀ (s : State) (data : List Byte),
    exec (.wrnvcr data) s = .next { s with
      fsm := .inDataPhase, opcodeSeen := true,
      op := operationWithData (.writeRegister .nonVolatileConfig) data.length,
      nvcr := if s.wel then
          (match data with
          | [] => s.nvcr
          | [low] => BitVec.ofNat 16 (s.nvcr.toNat / 256 * 256 + low.toNat)
          | low :: high :: _ => BitVec.ofNat 16 (high.toNat * 256 + low.toNat))
        else s.nvcr,
      responses := s.responses ++ s.unspecifiedRun (1 + data.length),
      log := s.log ++ (if s.wel then extraByteAnomalies .nonVolatileConfig 2 data.length
        else data.map (.permRegWrite .nonVolatileConfig)),
      freeIndex := s.freeIndex + (1 + data.length) }

/-- WRVECR takes its first data byte, the latch set or clear, and logs `EV4` for each further one
(R167, R168, R178; the spec's own decision D18). -/
def Obligations.EnhancedWriteNeedsNoLatch : Prop :=
  ∀ (s : State) (data : List Byte),
    exec (.wrvecr data) s = .next { s with
      fsm := .inDataPhase, opcodeSeen := true,
      op := operationWithData (.writeRegister .enhancedVolatileConfig) data.length,
      evcr := data.headD s.evcr,
      responses := s.responses ++ s.unspecifiedRun (1 + data.length),
      log := s.log ++ extraByteAnomalies .enhancedVolatileConfig 1 data.length,
      freeIndex := s.freeIndex + (1 + data.length) }

/-- A data byte of a write to the status or the flag-status register changes no register, no store
byte and not the latch, and is logged as `EV12`, the latch set or clear; the `END` of such a write does
not clear the latch (R165, R166). That the rejected byte is counted (R93) is the spec's own decision D16,
that its response is left open (R165) its decision D3 (notes/assumptions/2.md and 10.md). The flag-status
register, which no instruction writes, can be the target under a map that binds an opcode to it. -/
def Obligations.UnwritableRegisterByteIsLogged : Prop :=
  ∀ (s : State) (rest : List Event) (r : RegisterId),
    r = .status ∨ r = .flagStatus → s.fsm = .inDataPhase → s.op.kind = .writeRegister r →
    (∀ b, s.link = .byte b :: rest → step s = .next { s with
      link := rest,
      op := { s.op with bytesHandledInDataPhase := s.op.bytesHandledInDataPhase + 1 },
      responses := s.responses ++ s.unspecifiedRun 1,
      log := s.log ++ [.regNotWritable r b], freeIndex := s.freeIndex + 1 }) ∧
    (s.link = .endTransaction :: rest → ∃ t, step s = .next t ∧ t.wel = s.wel)

/-! ## Frames -/

/-- The identification, read and register-read instructions, with any operand bytes, leave the latch,
every register, every byte of the store, the link and the configuration as they were (R115, R120,
R150). -/
def Obligations.ReadClassFrame : Prop :=
  ∀ (s t : State) (address sent : List Byte) (i : Instr),
    i ∈ [Instr.rdid sent, .rdid2 sent, .miordid sent, .read address sent, .fastRead address sent,
      .dofr address sent, .diofr address sent, .qofr address sent, .qiofr address sent,
      .rdsr sent, .rfsr sent, .rdvcr sent, .rdnvcr sent, .rdvecr sent] →
    exec i s = .next t →
    t.wel = s.wel ∧ t.vcr = s.vcr ∧ t.nvcr = s.nvcr ∧ t.evcr = s.evcr ∧
    t.link = s.link ∧ t.cfg = s.cfg ∧ ∀ a, t.byteAt a = s.byteAt a

/-- The program instructions leave the latch, every register, the link and the configuration as they
were, and every byte of the store outside the addresses their data bytes go to (R130, R55). That no
byte at a wrapped address changes (R55) is the spec's own decision D23 (notes/assumptions/10.md). -/
def Obligations.ProgramFrame : Prop :=
  ∀ (s t : State) (address data : List Byte) (i : Instr),
    i ∈ [Instr.pp address data, .difp address data, .edifp address data,
      .qifp address data, .eqifp address data] →
    address.length = s.addrLen → exec i s = .next t →
    t.wel = s.wel ∧ t.vcr = s.vcr ∧ t.nvcr = s.nvcr ∧ t.evcr = s.evcr ∧
    t.link = s.link ∧ t.cfg = s.cfg ∧
    ∀ a, ¬(addressValue address ≤ a ∧ a < addressValue address + data.length) →
      t.byteAt a = s.byteAt a

/-- The erase instructions, the address complete or not, leave the latch, every register, the link and
the configuration as they were; SE leaves every byte outside the sector it fills as it was, and both
leave every byte beyond the capacity as it was (R140, R145). -/
def Obligations.EraseFrame : Prop :=
  ∀ (s t : State) (address : List Byte) (i : Instr),
    i ∈ [Instr.se address, .de address] → address.length ≤ s.addrLen → exec i s = .next t →
    t.wel = s.wel ∧ t.vcr = s.vcr ∧ t.nvcr = s.nvcr ∧ t.evcr = s.evcr ∧
    t.link = s.link ∧ t.cfg = s.cfg ∧
    (∀ a, s.cfg.capacity ≤ a → t.byteAt a = s.byteAt a) ∧
    (i = .se address → ∀ a,
      ¬(sectorBase s.cfg.sectorSize (addressValue address) ≤ a ∧
        a < sectorBase s.cfg.sectorSize (addressValue address) + s.cfg.sectorSize) →
      t.byteAt a = s.byteAt a)

/-- The register writes leave the latch, the store, the link, the configuration and every register but
their own as they were; WREN and WRDI leave everything but the latch (R165, R110). -/
def Obligations.RegisterWriteFrame : Prop :=
  ∀ (s t : State) (data : List Byte) (i : Instr),
    i ∈ [Instr.wrsr data, .wrvcr data, .wrnvcr data, .wrvecr data, .wren, .wrdi] →
    exec i s = .next t →
    (i ≠ .wren → i ≠ .wrdi → t.wel = s.wel) ∧
    (i ≠ .wrvcr data → t.vcr = s.vcr) ∧ (i ≠ .wrnvcr data → t.nvcr = s.nvcr) ∧
    (i ≠ .wrvecr data → t.evcr = s.evcr) ∧
    t.link = s.link ∧ t.cfg = s.cfg ∧ ∀ a, t.byteAt a = s.byteAt a

/-! ## Views -/

/-- The status register shows the latch at `WEL_BIT` and zeros elsewhere (R32; the spec's own decision D4). -/
def Obligations.StatusRegisterShowsTheLatch : Prop :=
  ∀ (s : State) (k : Nat), k < 8 →
    s.statusRegister.getLsbD k = (decide (k = s.cfg.welBit.val) && s.wel)

/-- The flag-status register shows 4-byte addressing at `FSR_ADDR4_BIT` and `FSR_BASE` elsewhere
(R34), the mode being that of bit `NVCR_ADDR3_BIT` of the non-volatile register (R31; the spec's own
decisions D5 and D6). -/
def Obligations.FlagStatusShowsTheAddressingMode : Prop :=
  ∀ (s : State) (k : Nat), k < 8 →
    s.flagStatusRegister.getLsbD k =
      (if k = s.cfg.fsrAddr4Bit.val then !s.nvcr.getLsbD s.cfg.nvcrAddr3Bit
       else s.cfg.fsrBase.getLsbD k)

/-! ## Rules of the whole machine -/

/-- Only four things change the latch: WREN, WRDI, the `END` of a mutating operation, `RESET`
(R29). -/
def Obligations.OnlyFourThingsChangeTheLatch : Prop :=
  ∀ s t : State, step s = .next t → t.wel ≠ s.wel →
    (∃ b rest, s.fsm = .idle ∧ s.link = .byte b :: rest ∧
      ((opClassOf s.cfg.opcodeMap b = .writeEnable ∧ t.wel = true) ∨
       (opClassOf s.cfg.opcodeMap b = .writeDisable ∧ t.wel = false))) ∨
    (∃ rest, s.link = .endTransaction :: rest ∧ t.wel = false ∧
      (s.op.kind = .program ∨ (∃ g, s.op.kind = .erase g) ∨
        s.op.kind = .writeRegister .volatileConfig)) ∨
    (∃ rest, s.link = .reset :: rest)

/-- Write-disabled, no event but `RESET` changes the store, the volatile or the non-volatile
configuration register (R188, R29). -/
def Obligations.WriteDisabledProtectsStoreAndConfig : Prop :=
  ∀ s t : State, s.wel = false → (∀ rest, s.link ≠ .reset :: rest) → step s = .next t →
    t.store = s.store ∧ t.vcr = s.vcr ∧ t.nvcr = s.nvcr

/-- The store changes only in a data byte of a Program or in the last address byte of an Erase, with
the latch set (R41, R60). -/
def Obligations.StoreChangesOnlyInProgramOrErase : Prop :=
  ∀ s t : State, step s = .next t → t.store ≠ s.store →
    s.wel = true ∧ ∃ b rest, s.link = .byte b :: rest ∧
      ((s.fsm = .inDataPhase ∧ s.op.kind = .program) ∨
       (s.fsm = .accAddrNoData ∧ (∃ g, s.op.kind = .erase g) ∧
        s.op.addressBytesReceived + 1 = s.op.addressLength))

/-- What the block has put out influences no later step: with another log and other responses behind
it, it does the same and puts out the same (R180, R44 item 3). -/
def Obligations.OutputsInfluenceNothing : Prop :=
  ∀ (s t : State) (log : List Anomaly) (responses : List Byte), step s = .next t →
    step { s with log := log, responses := responses } = .next { t with
      log := log ++ t.log.drop s.log.length,
      responses := responses ++ t.responses.drop s.responses.length }

/-- The volatile and the enhanced-volatile configuration register influence nothing but themselves and
the bytes their own read answers (R35, R37; the spec's own decision D7). From a state with other values in
them a step answers the same state but for the two registers and the last response: each register is
left as it was in both steps or comes out alike; a data byte of RDVCR or RDVECR is answered with the
register's own value (R150); the response to any other event is the same. -/
def Obligations.CosmeticRegistersInfluenceNothing : Prop :=
  ∀ (s t : State) (vcr evcr : Byte), step s = .next t →
    ∃ u, step { s with vcr := vcr, evcr := evcr } = .next u ∧
      { u with vcr := t.vcr, evcr := t.evcr, responses := t.responses } = t ∧
      ((u.vcr = vcr ∧ t.vcr = s.vcr) ∨ u.vcr = t.vcr) ∧
      ((u.evcr = evcr ∧ t.evcr = s.evcr) ∨ u.evcr = t.evcr) ∧
      (∀ b rest, s.link = .byte b :: rest → s.fsm = .inDataPhase →
        (s.op.kind = .readRegister .volatileConfig →
          t.responses = s.responses ++ [s.vcr] ∧ u.responses = s.responses ++ [vcr]) ∧
        (s.op.kind = .readRegister .enhancedVolatileConfig →
          t.responses = s.responses ++ [s.evcr] ∧ u.responses = s.responses ++ [evcr])) ∧
      (¬((∃ b rest, s.link = .byte b :: rest) ∧ s.fsm = .inDataPhase ∧
          (s.op.kind = .readRegister .volatileConfig ∨
            s.op.kind = .readRegister .enhancedVolatileConfig)) →
        u.responses = t.responses)

/-- The ghost bit influences nothing but itself and what `END` logs (R43, R96; the spec's own decision
D22): from a state with another value in it a step answers the same state but for the bit and, at `END`
alone, one entry of the log, the `EV3` that is there exactly where the bit was clear. -/
def Obligations.OpcodeSeenInfluencesOnlyTheLog : Prop :=
  ∀ (s t : State) (seen : Bool), step s = .next t →
    ∃ u, step { s with opcodeSeen := seen } = .next u ∧
      { u with opcodeSeen := t.opcodeSeen, log := t.log } = t ∧
      ((∀ rest, s.link ≠ .endTransaction :: rest) → u.log = t.log) ∧
      (∀ rest, s.link = .endTransaction :: rest → ∃ before after : List Anomaly,
        t.log = s.log ++ before ++ (if s.opcodeSeen then [] else [.endNoOpcode]) ++ after ∧
        u.log = s.log ++ before ++ (if seen then [] else [.endNoOpcode]) ++ after)

/-- A program transaction, closed by `END`, and a read transaction of the same address: the read
answers the bytes programmed, and the latch is clear (R63 item 1, R95, R121; the opcode numbers, that a
program replaces the byte and that a read takes no dummy byte are the spec's own decisions D1, D27 and
D28). -/
def Obligations.ReadAfterProgramAnswersTheData : Prop :=
  ∀ (s : State) (address data sent : List Byte),
    StoreInv s → s.fsm = .idle → s.wel = true → s.cfg.opcodeMap = defaultOpcodeMap →
    address.length = s.addrLen → sent.length = data.length →
    addressValue address + data.length ≤ s.cfg.capacity →
    s.link = (encode (.pp address data)).map Event.byte ++ [.endTransaction]
      ++ (encode (.read address sent)).map Event.byte →
    ∃ (t : State) (before : List Byte), Host.Core.run core s.link.length s = .next t ∧
      t.responses = before ++ data ∧ t.wel = false

/-- The address is valid once all its bytes are in, and no byte is handled as data before that (R25): an
opcode byte with an address phase opens no data phase; an address byte is handled as no data byte and
leaves the address phase exactly when it completes the address; from then on no byte of the transaction
changes the address. -/
def Obligations.NoDataByteBeforeTheAddressIsComplete : Prop :=
  ∀ (s t : State) (b : Byte) (rest : List Event), s.link = .byte b :: rest → step s = .next t →
    (s.fsm = .idle → t.fsm ≠ .noDataReady ∧ (t.fsm = .inDataPhase →
      t.op.kind ≠ .read ∧ t.op.kind ≠ .program ∧ ∀ g, t.op.kind ≠ .erase g)) ∧
    (s.fsm = .accAddrData ∨ s.fsm = .accAddrNoData →
      t.op.bytesHandledInDataPhase = s.op.bytesHandledInDataPhase ∧
      (t.fsm = .inDataPhase ∨ t.fsm = .noDataReady ↔
        t.op.addressBytesReceived = t.op.addressLength)) ∧
    (s.fsm = .inDataPhase ∨ s.fsm = .noDataReady →
      t.fsm = s.fsm ∧ t.op.accumulatedAddress = s.op.accumulatedAddress ∧
      t.op.addressBytesReceived = s.op.addressBytesReceived ∧
      t.op.addressLength = s.op.addressLength)
end

