-- ==== Sys2Proof/Laws/State.lean ====
section
/-! SUPPORT. One lemma per field per update of the state, so that no later proof unfolds a record
update. -/

namespace Sys2Proof.Machine

variable (s : State)

/-! ### `State.respond` -/

@[simp] theorem respond_cfg (v : Byte) : (s.respond v).cfg = s.cfg := rfl
@[simp] theorem respond_fsm (v : Byte) : (s.respond v).fsm = s.fsm := rfl
@[simp] theorem respond_op (v : Byte) : (s.respond v).op = s.op := rfl
@[simp] theorem respond_opcodeSeen (v : Byte) : (s.respond v).opcodeSeen = s.opcodeSeen := rfl
@[simp] theorem respond_wel (v : Byte) : (s.respond v).wel = s.wel := rfl
@[simp] theorem respond_vcr (v : Byte) : (s.respond v).vcr = s.vcr := rfl
@[simp] theorem respond_nvcr (v : Byte) : (s.respond v).nvcr = s.nvcr := rfl
@[simp] theorem respond_evcr (v : Byte) : (s.respond v).evcr = s.evcr := rfl
@[simp] theorem respond_store (v : Byte) : (s.respond v).store = s.store := rfl
@[simp] theorem respond_link (v : Byte) : (s.respond v).link = s.link := rfl
@[simp] theorem respond_responses (v : Byte) : (s.respond v).responses = s.responses ++ [v] := rfl
@[simp] theorem respond_log (v : Byte) : (s.respond v).log = s.log := rfl
@[simp] theorem respond_freeIndex (v : Byte) : (s.respond v).freeIndex = s.freeIndex := rfl

/-! ### `State.respondUnspec` -/

@[simp] theorem respondUnspec_cfg : (s.respondUnspec).cfg = s.cfg := rfl
@[simp] theorem respondUnspec_fsm : (s.respondUnspec).fsm = s.fsm := rfl
@[simp] theorem respondUnspec_op : (s.respondUnspec).op = s.op := rfl
@[simp] theorem respondUnspec_opcodeSeen : (s.respondUnspec).opcodeSeen = s.opcodeSeen := rfl
@[simp] theorem respondUnspec_wel : (s.respondUnspec).wel = s.wel := rfl
@[simp] theorem respondUnspec_vcr : (s.respondUnspec).vcr = s.vcr := rfl
@[simp] theorem respondUnspec_nvcr : (s.respondUnspec).nvcr = s.nvcr := rfl
@[simp] theorem respondUnspec_evcr : (s.respondUnspec).evcr = s.evcr := rfl
@[simp] theorem respondUnspec_store : (s.respondUnspec).store = s.store := rfl
@[simp] theorem respondUnspec_link : (s.respondUnspec).link = s.link := rfl
@[simp] theorem respondUnspec_responses :
    (s.respondUnspec).responses = s.responses ++ [s.unspecifiedByte] := rfl
@[simp] theorem respondUnspec_log : (s.respondUnspec).log = s.log := rfl
@[simp] theorem respondUnspec_freeIndex : (s.respondUnspec).freeIndex = s.freeIndex + 1 := rfl

/-! ### `State.emit` -/

@[simp] theorem emit_cfg (e : Anomaly) : (s.emit e).cfg = s.cfg := rfl
@[simp] theorem emit_fsm (e : Anomaly) : (s.emit e).fsm = s.fsm := rfl
@[simp] theorem emit_op (e : Anomaly) : (s.emit e).op = s.op := rfl
@[simp] theorem emit_opcodeSeen (e : Anomaly) : (s.emit e).opcodeSeen = s.opcodeSeen := rfl
@[simp] theorem emit_wel (e : Anomaly) : (s.emit e).wel = s.wel := rfl
@[simp] theorem emit_vcr (e : Anomaly) : (s.emit e).vcr = s.vcr := rfl
@[simp] theorem emit_nvcr (e : Anomaly) : (s.emit e).nvcr = s.nvcr := rfl
@[simp] theorem emit_evcr (e : Anomaly) : (s.emit e).evcr = s.evcr := rfl
@[simp] theorem emit_store (e : Anomaly) : (s.emit e).store = s.store := rfl
@[simp] theorem emit_link (e : Anomaly) : (s.emit e).link = s.link := rfl
@[simp] theorem emit_responses (e : Anomaly) : (s.emit e).responses = s.responses := rfl
@[simp] theorem emit_log (e : Anomaly) : (s.emit e).log = s.log ++ [e] := rfl
@[simp] theorem emit_freeIndex (e : Anomaly) : (s.emit e).freeIndex = s.freeIndex := rfl

/-! ### `State.setLatch` -/

@[simp] theorem setLatch_cfg (w : Bool) : (s.setLatch w).cfg = s.cfg := rfl
@[simp] theorem setLatch_fsm (w : Bool) : (s.setLatch w).fsm = s.fsm := rfl
@[simp] theorem setLatch_op (w : Bool) : (s.setLatch w).op = s.op := rfl
@[simp] theorem setLatch_opcodeSeen (w : Bool) : (s.setLatch w).opcodeSeen = true := rfl
@[simp] theorem setLatch_wel (w : Bool) : (s.setLatch w).wel = w := rfl
@[simp] theorem setLatch_vcr (w : Bool) : (s.setLatch w).vcr = s.vcr := rfl
@[simp] theorem setLatch_nvcr (w : Bool) : (s.setLatch w).nvcr = s.nvcr := rfl
@[simp] theorem setLatch_evcr (w : Bool) : (s.setLatch w).evcr = s.evcr := rfl
@[simp] theorem setLatch_store (w : Bool) : (s.setLatch w).store = s.store := rfl
@[simp] theorem setLatch_link (w : Bool) : (s.setLatch w).link = s.link := rfl
@[simp] theorem setLatch_responses (w : Bool) :
    (s.setLatch w).responses = s.responses ++ [s.unspecifiedByte] := rfl
@[simp] theorem setLatch_log (w : Bool) : (s.setLatch w).log = s.log := rfl
@[simp] theorem setLatch_freeIndex (w : Bool) : (s.setLatch w).freeIndex = s.freeIndex + 1 := rfl

/-! ### `State.beginOperation` -/

@[simp] theorem beginOperation_cfg (k : OpKind) : (s.beginOperation k).cfg = s.cfg := rfl
@[simp] theorem beginOperation_fsm (k : OpKind) : (s.beginOperation k).fsm = k.firstFsm := rfl
@[simp] theorem beginOperation_op (k : OpKind) :
    (s.beginOperation k).op = { DecodedOperation.empty with kind := k, addressLength := if k.hasAddress then s.addrLen else 0 } := rfl
@[simp] theorem beginOperation_opcodeSeen (k : OpKind) :
    (s.beginOperation k).opcodeSeen = true := rfl
@[simp] theorem beginOperation_wel (k : OpKind) : (s.beginOperation k).wel = s.wel := rfl
@[simp] theorem beginOperation_vcr (k : OpKind) : (s.beginOperation k).vcr = s.vcr := rfl
@[simp] theorem beginOperation_nvcr (k : OpKind) : (s.beginOperation k).nvcr = s.nvcr := rfl
@[simp] theorem beginOperation_evcr (k : OpKind) : (s.beginOperation k).evcr = s.evcr := rfl
@[simp] theorem beginOperation_store (k : OpKind) : (s.beginOperation k).store = s.store := rfl
@[simp] theorem beginOperation_link (k : OpKind) : (s.beginOperation k).link = s.link := rfl
@[simp] theorem beginOperation_responses (k : OpKind) :
    (s.beginOperation k).responses = s.responses ++ [s.unspecifiedByte] := rfl
@[simp] theorem beginOperation_log (k : OpKind) : (s.beginOperation k).log = s.log := rfl
@[simp] theorem beginOperation_freeIndex (k : OpKind) :
    (s.beginOperation k).freeIndex = s.freeIndex + 1 := rfl

/-! ### `State.countDataByte` -/

@[simp] theorem countDataByte_cfg : (s.countDataByte).cfg = s.cfg := rfl
@[simp] theorem countDataByte_fsm : (s.countDataByte).fsm = s.fsm := rfl
@[simp] theorem countDataByte_op :
    (s.countDataByte).op = { s.op with bytesHandledInDataPhase := s.op.bytesHandledInDataPhase + 1 } := rfl
@[simp] theorem countDataByte_opcodeSeen : (s.countDataByte).opcodeSeen = s.opcodeSeen := rfl
@[simp] theorem countDataByte_wel : (s.countDataByte).wel = s.wel := rfl
@[simp] theorem countDataByte_vcr : (s.countDataByte).vcr = s.vcr := rfl
@[simp] theorem countDataByte_nvcr : (s.countDataByte).nvcr = s.nvcr := rfl
@[simp] theorem countDataByte_evcr : (s.countDataByte).evcr = s.evcr := rfl
@[simp] theorem countDataByte_store : (s.countDataByte).store = s.store := rfl
@[simp] theorem countDataByte_link : (s.countDataByte).link = s.link := rfl
@[simp] theorem countDataByte_responses : (s.countDataByte).responses = s.responses := rfl
@[simp] theorem countDataByte_log : (s.countDataByte).log = s.log := rfl
@[simp] theorem countDataByte_freeIndex : (s.countDataByte).freeIndex = s.freeIndex := rfl

/-! ### `State.takeAddressByte` -/

@[simp] theorem takeAddressByte_cfg (b : Byte) : (s.takeAddressByte b).cfg = s.cfg := rfl
@[simp] theorem takeAddressByte_fsm (b : Byte) : (s.takeAddressByte b).fsm = s.fsm := rfl
@[simp] theorem takeAddressByte_op (b : Byte) :
    (s.takeAddressByte b).op = { s.op with accumulatedAddress := appendAddressByte s.op.accumulatedAddress b, addressBytesReceived := s.op.addressBytesReceived + 1 } := rfl
@[simp] theorem takeAddressByte_opcodeSeen (b : Byte) :
    (s.takeAddressByte b).opcodeSeen = s.opcodeSeen := rfl
@[simp] theorem takeAddressByte_wel (b : Byte) : (s.takeAddressByte b).wel = s.wel := rfl
@[simp] theorem takeAddressByte_vcr (b : Byte) : (s.takeAddressByte b).vcr = s.vcr := rfl
@[simp] theorem takeAddressByte_nvcr (b : Byte) : (s.takeAddressByte b).nvcr = s.nvcr := rfl
@[simp] theorem takeAddressByte_evcr (b : Byte) : (s.takeAddressByte b).evcr = s.evcr := rfl
@[simp] theorem takeAddressByte_store (b : Byte) : (s.takeAddressByte b).store = s.store := rfl
@[simp] theorem takeAddressByte_link (b : Byte) : (s.takeAddressByte b).link = s.link := rfl
@[simp] theorem takeAddressByte_responses (b : Byte) :
    (s.takeAddressByte b).responses = s.responses := rfl
@[simp] theorem takeAddressByte_log (b : Byte) : (s.takeAddressByte b).log = s.log := rfl
@[simp] theorem takeAddressByte_freeIndex (b : Byte) :
    (s.takeAddressByte b).freeIndex = s.freeIndex := rfl

/-! ### `endTransaction` -/

@[simp] theorem endTransaction_cfg : (endTransaction s).cfg = s.cfg := rfl
@[simp] theorem endTransaction_fsm : (endTransaction s).fsm = .idle := rfl
@[simp] theorem endTransaction_op : (endTransaction s).op = DecodedOperation.empty := rfl
@[simp] theorem endTransaction_opcodeSeen : (endTransaction s).opcodeSeen = false := rfl
@[simp] theorem endTransaction_wel :
    (endTransaction s).wel = (if s.op.kind.mutating then false else s.wel) := rfl
@[simp] theorem endTransaction_vcr : (endTransaction s).vcr = s.vcr := rfl
@[simp] theorem endTransaction_nvcr : (endTransaction s).nvcr = s.nvcr := rfl
@[simp] theorem endTransaction_evcr : (endTransaction s).evcr = s.evcr := rfl
@[simp] theorem endTransaction_store : (endTransaction s).store = s.store := rfl
@[simp] theorem endTransaction_link : (endTransaction s).link = s.link := rfl
@[simp] theorem endTransaction_responses : (endTransaction s).responses = s.responses := rfl
@[simp] theorem endTransaction_log : (endTransaction s).log = s.log ++ s.endAnomalies := rfl
@[simp] theorem endTransaction_freeIndex : (endTransaction s).freeIndex = s.freeIndex := rfl

/-! ### `deviceReset` -/

@[simp] theorem deviceReset_cfg : (deviceReset s).cfg = s.cfg := rfl
@[simp] theorem deviceReset_fsm : (deviceReset s).fsm = .idle := rfl
@[simp] theorem deviceReset_op : (deviceReset s).op = DecodedOperation.empty := rfl
@[simp] theorem deviceReset_opcodeSeen : (deviceReset s).opcodeSeen = false := rfl
@[simp] theorem deviceReset_wel : (deviceReset s).wel = s.cfg.srReset.getLsbD s.cfg.welBit := rfl
@[simp] theorem deviceReset_vcr : (deviceReset s).vcr = s.cfg.vcrReset := rfl
@[simp] theorem deviceReset_nvcr : (deviceReset s).nvcr = s.cfg.nvcrReset := rfl
@[simp] theorem deviceReset_evcr : (deviceReset s).evcr = s.cfg.evcrReset := rfl
@[simp] theorem deviceReset_store : (deviceReset s).store = s.store := rfl
@[simp] theorem deviceReset_link : (deviceReset s).link = s.link := rfl
@[simp] theorem deviceReset_responses : (deviceReset s).responses = s.responses := rfl
@[simp] theorem deviceReset_log : (deviceReset s).log = s.log := rfl
@[simp] theorem deviceReset_freeIndex : (deviceReset s).freeIndex = s.freeIndex := rfl

/-! ### The views and lengths read only what they should -/

@[simp] theorem respond_addrLen (v : Byte) : (s.respond v).addrLen = s.addrLen := rfl
@[simp] theorem respondUnspec_addrLen : s.respondUnspec.addrLen = s.addrLen := rfl
@[simp] theorem emit_addrLen (e : Anomaly) : (s.emit e).addrLen = s.addrLen := rfl
@[simp] theorem emit_unspecifiedByte (e : Anomaly) : (s.emit e).unspecifiedByte = s.unspecifiedByte := rfl
@[simp] theorem respond_unspecifiedByte (v : Byte) :
    (s.respond v).unspecifiedByte = s.unspecifiedByte := rfl

theorem addrLen_three_or_four : s.addrLen = 3 ∨ s.addrLen = 4 := by
  unfold State.addrLen
  split <;> simp

end Sys2Proof.Machine
end

