-- ==== Sys2Proof/Laws/Memory.lean ====
section
/-! SUPPORT. The store: read after write, read after fill, and that every memory operation keeps the
canonical form. -/

namespace Sys2Proof.Machine

variable {blank v : Byte} {capacity a n x y : Nat} {m : Memory}

theorem Memory.read_of_forall_ne (h : ∀ c ∈ m, c.1 ≠ x) : Memory.read blank m x = blank := by
  induction m with
  | nil => rfl
  | cons c m ih =>
    obtain ⟨a, w⟩ := c
    have hne : x ≠ a := fun e => h (a, w) (by simp) e.symm
    simp only [Memory.read, hne, if_false]
    exact ih fun d hd => h d (by simp [hd])

theorem Memory.mem_write_value {c : Host.Cell} (h : c ∈ Memory.write blank m x v) :
    (c = (x, v) ∧ v ≠ blank) ∨ c ∈ m := by
  induction m with
  | nil =>
    simp only [Memory.write] at h
    split at h <;> simp_all
  | cons d m ih =>
    obtain ⟨a, w⟩ := d
    simp only [Memory.write] at h
    split at h
    · split at h <;> simp_all
    · split at h
      · split at h
        · simp_all
        · rcases List.mem_cons.1 h with h | h <;> simp_all
      · rcases List.mem_cons.1 h with h | h
        · simp [h]
        · rcases ih h with h | h <;> simp [h]

theorem Memory.mem_write {c : Host.Cell} (h : c ∈ Memory.write blank m x v) :
    c = (x, v) ∨ c ∈ m :=
  (Memory.mem_write_value h).imp_left And.left

/-- A write keeps the canonical form. -/
theorem Memory.wf_write (hm : Memory.wf blank capacity m) (hx : x < capacity) :
    Memory.wf blank capacity (Memory.write blank m x v) := by
  refine ⟨?_, fun c hc => ?_⟩
  · have hs := hm.1
    clear hm
    induction m with
    | nil =>
      simp only [Memory.write]
      split <;> simp
    | cons d m ih =>
      obtain ⟨a, w⟩ := d
      have hlt : ∀ e ∈ m, a < e.1 := fun e he => List.rel_of_pairwise_cons hs he
      have hs' := hs.of_cons
      simp only [Memory.write]
      split
      · split
        · exact hs
        · refine List.pairwise_cons.2 ⟨fun e he => ?_, hs⟩
          rcases List.mem_cons.1 he with rfl | he
          · assumption
          · have := hlt e he
            omega
      · split
        · split
          · exact hs'
          · subst x
            exact List.pairwise_cons.2 ⟨hlt, hs'⟩
        · refine List.pairwise_cons.2 ⟨fun e he => ?_, ih hs'⟩
          rcases Memory.mem_write he with rfl | he
          · show a < x
            omega
          · exact hlt e he
  · rcases Memory.mem_write_value hc with ⟨rfl, hv⟩ | hc
    · exact ⟨hv, hx⟩
    · exact hm.2 c hc

/-- A read after a write to the same address gives the value written. -/
theorem Memory.read_write_same (hm : Memory.wf blank capacity m) :
    Memory.read blank (Memory.write blank m x v) x = v := by
  have hs := hm.1
  clear hm
  induction m with
  | nil =>
    simp only [Memory.write]
    split <;> simp_all [Memory.read]
  | cons d m ih =>
    obtain ⟨a, w⟩ := d
    have hlt : ∀ e ∈ m, a < e.1 := fun e he => List.rel_of_pairwise_cons hs he
    simp only [Memory.write]
    split
    · split
      · rename_i h hv
        rw [hv]
        refine Memory.read_of_forall_ne fun e he => ?_
        rcases List.mem_cons.1 he with rfl | he
        · show a ≠ x
          omega
        · have := hlt e he
          omega
      · simp [Memory.read]
    · split
      · split
        · rename_i h hv
          rw [hv]
          exact Memory.read_of_forall_ne fun e he => by
            have := hlt e he
            omega
        · simp [Memory.read]
      · rename_i h
        simp only [Memory.read, h, if_false]
        exact ih hs.of_cons

/-- A write leaves every other address alone. -/
theorem Memory.read_write_other (h : y ≠ x) :
    Memory.read blank (Memory.write blank m x v) y = Memory.read blank m y := by
  induction m with
  | nil =>
    simp only [Memory.write]
    split <;> simp [Memory.read, h]
  | cons d m ih =>
    obtain ⟨a, w⟩ := d
    simp only [Memory.write]
    split
    · split <;> simp [Memory.read, h]
    · split
      · subst x
        split <;> simp [Memory.read, h]
      · simp only [Memory.read, ih]

theorem Memory.wf_writeRun (hm : Memory.wf blank capacity m) (h : a + n ≤ capacity) :
    Memory.wf blank capacity (Memory.writeRun blank v n a m) := by
  induction n generalizing a m with
  | zero => exact hm
  | succ n ih => exact ih (Memory.wf_write hm (by omega)) (by omega)

theorem Memory.read_writeRun (hm : Memory.wf blank capacity m) (h : a + n ≤ capacity) :
    Memory.read blank (Memory.writeRun blank v n a m) x =
      if a ≤ x ∧ x < a + n then v else Memory.read blank m x := by
  induction n generalizing a m with
  | zero =>
    have hx : ¬(a ≤ x ∧ x < a + 0) := by omega
    simp only [Memory.writeRun, hx, if_false]
  | succ n ih =>
    simp only [Memory.writeRun]
    rw [ih (Memory.wf_write hm (by omega)) (by omega)]
    by_cases hx : x = a
    · subst x
      have h1 : ¬(a + 1 ≤ a ∧ a < a + 1 + n) := by omega
      have h2 : a ≤ a ∧ a < a + (n + 1) := by omega
      simp only [h1, h2, if_false, if_true, and_self]
      exact Memory.read_write_same hm
    · rw [Memory.read_write_other hx]
      have h1 : (a + 1 ≤ x ∧ x < a + 1 + n) ↔ (a ≤ x ∧ x < a + (n + 1)) := by omega
      simp only [h1]

/-- A fill with the unlisted value needs no canonical form to be read right. -/
theorem Memory.read_fill_blank :
    Memory.read blank (Memory.fill blank m a n blank) x =
      if a ≤ x ∧ x < a + n then blank else Memory.read blank m x := by
  simp only [Memory.fill, if_true]
  induction m with
  | nil => simp [Memory.read]
  | cons d m ih =>
    obtain ⟨b, w⟩ := d
    rw [List.filter_cons]
    by_cases hb : a ≤ b ∧ b < a + n
    · have : (!(decide (a ≤ b) && decide (b < a + n))) = false := by simp [hb]
      simp only [this, Bool.false_eq_true, if_false, ih, Memory.read]
      split
      · rfl
      · rename_i hx
        have : x ≠ b := fun e => hx (e ▸ hb)
        simp [this]
    · have : (!(decide (a ≤ b) && decide (b < a + n))) = true := by
        simp only [Bool.not_eq_true', Bool.and_eq_false_iff, decide_eq_false_iff_not]
        omega
      simp only [this, if_true, Memory.read, ih]
      split
      · rename_i hx
        subst x
        simp [hb]
      · rfl

/-- A read after a fill: the fill's value in its range, the old byte outside it. -/
theorem Memory.read_fill (hm : Memory.wf blank capacity m) (h : a + n ≤ capacity) :
    Memory.read blank (Memory.fill blank m a n v) x =
      if a ≤ x ∧ x < a + n then v else Memory.read blank m x := by
  by_cases hv : v = blank
  · subst v
    exact Memory.read_fill_blank
  · simp only [Memory.fill, hv, if_false]
    exact Memory.read_writeRun hm h

/-- A fill keeps the canonical form. -/
theorem Memory.wf_fill (hm : Memory.wf blank capacity m) (h : a + n ≤ capacity) :
    Memory.wf blank capacity (Memory.fill blank m a n v) := by
  unfold Memory.fill
  split
  · exact ⟨hm.1.filter _, fun c hc => hm.2 c (List.mem_of_mem_filter hc)⟩
  · exact Memory.wf_writeRun hm h

/-- The store of a new block is in canonical form, whatever image it is given. -/
theorem Cfg.initialStore_wf (c : Cfg) : Memory.wf c.erased c.capacity (Cfg.initialStore c) := by
  have step : ∀ (cells : List Host.Cell) (m : Memory), Memory.wf c.erased c.capacity m →
      Memory.wf c.erased c.capacity (cells.foldl (fun m cell =>
        if cell.1 < c.capacity then Memory.write c.erased m cell.1 cell.2 else m) m) := by
    intro cells
    induction cells with
    | nil => exact fun _ h => h
    | cons d cells ih =>
      intro m hm
      refine ih _ ?_
      dsimp only
      split
      · exact Memory.wf_write hm ‹_›
      · exact hm
  exact step c.initStore [] ⟨List.Pairwise.nil, by simp⟩

/-! ## The store primitives: everything they can do -/

variable {s t : State}

theorem storeRead_eq_some_iff : s.storeRead a = some v ↔ a < s.cfg.capacity ∧ s.byteAt a = v := by
  unfold State.storeRead
  split <;> simp_all

theorem storeRead_eq_none_iff : s.storeRead a = none ↔ s.cfg.capacity ≤ a := by
  unfold State.storeRead
  split <;> simp_all

/-- `StoreWrite` in range: the byte is there, every other byte and every other field is as before,
the canonical form is kept. -/
theorem storeWrite_some (h : s.storeWrite a v = some t) :
    a < s.cfg.capacity ∧ t = { s with store := Memory.write s.cfg.erased s.store a v } := by
  unfold State.storeWrite at h
  split at h <;> simp_all

theorem storeWrite_eq_none_iff : s.storeWrite a v = none ↔ s.cfg.capacity ≤ a := by
  unfold State.storeWrite
  split <;> simp_all

/-- `StoreFill` in range: only the store differs, and it is the filled one. -/
theorem storeFill_some (h : s.storeFill a n v = some t) :
    a + n ≤ s.cfg.capacity ∧ t = { s with store := Memory.fill s.cfg.erased s.store a n v } := by
  unfold State.storeFill at h
  split at h <;> simp_all

theorem storeFill_eq_none_iff : s.storeFill a n v = none ↔ s.cfg.capacity < a + n := by
  unfold State.storeFill
  split <;> simp_all

end Sys2Proof.Machine
end

