-- ==== Sys2Proof/Laws/Sequencer.lean ====
section
/-! SUPPORT. The sequencer: the unspecified response bytes of a run, the address phase as a whole, and
what an erase can do. -/

namespace Sys2Proof.Machine

variable {s t : State}

/-! ## The unspecified response bytes -/

/-- The k-th unspecified response byte under a configuration. -/
def unspecifiedAt (c : Cfg) (k : Nat) : Byte :=
  match c.respUnspec with
  | some b => b
  | none => Config.freeResponse k

theorem unspecifiedByte_eq (s : State) : s.unspecifiedByte = unspecifiedAt s.cfg s.freeIndex := rfl

theorem unspecifiedRun_eq (s : State) (n : Nat) :
    s.unspecifiedRun n = (List.range' s.freeIndex n).map (unspecifiedAt s.cfg) := by
  rw [List.range'_eq_map_range, List.map_map]
  rfl

@[simp] theorem unspecifiedRun_length (s : State) (n : Nat) : (s.unspecifiedRun n).length = n := by
  simp [State.unspecifiedRun]

@[simp] theorem unspecifiedRun_zero (s : State) : s.unspecifiedRun 0 = [] := rfl

theorem unspecifiedRun_one (s : State) : s.unspecifiedRun 1 = [s.unspecifiedByte] := by
  simp [unspecifiedRun_eq, unspecifiedByte_eq]

/-- The run splits: what follows `m` unspecified bytes is the run of the state that has given them. -/
theorem unspecifiedRun_add (hc : t.cfg = s.cfg) {m n : Nat} (hf : t.freeIndex = s.freeIndex + m) :
    s.unspecifiedRun (m + n) = s.unspecifiedRun m ++ t.unspecifiedRun n := by
  simp [unspecifiedRun_eq, hc, hf, List.range'_append_1, ← List.map_append]

theorem unspecifiedRun_congr (hc : t.cfg = s.cfg) (hf : t.freeIndex = s.freeIndex) (n : Nat) :
    t.unspecifiedRun n = s.unspecifiedRun n := by
  simp [unspecifiedRun_eq, hc, hf]

/-! ## The address phase -/

theorem appendAddressByte_eq (acc : Nat) (b : Byte) :
    appendAddressByte acc b = acc * 256 + b.toNat := by
  unfold appendAddressByte
  have hb : b.toNat < 2 ^ 8 := b.isLt
  rw [← Nat.shiftLeft_add_eq_or_of_lt hb, Nat.shiftLeft_eq]

/-- An address byte that leaves the address incomplete. -/
theorem addressByte_of_incomplete (b : Byte)
    (h : s.op.addressBytesReceived + 1 ≠ s.op.addressLength) :
    addressByte s b = (s.takeAddressByte b).respondUnspec := by
  simp [addressByte, h]

/-- The address byte that completes the address. -/
theorem addressByte_of_complete (b : Byte)
    (h : s.op.addressBytesReceived + 1 = s.op.addressLength) :
    addressByte s b = (s.takeAddressByte b).finishAddress.respondUnspec := by
  simp [addressByte, h]

/-- Address bytes that leave the address incomplete are accumulated, counted and answered. -/
theorem foldl_addressByte_incomplete (bytes : List Byte) (s : State)
    (h : s.op.addressBytesReceived + bytes.length < s.op.addressLength) :
    bytes.foldl addressByte s = { s with
      op := { s.op with
        accumulatedAddress := bytes.foldl appendAddressByte s.op.accumulatedAddress
        addressBytesReceived := s.op.addressBytesReceived + bytes.length }
      responses := s.responses ++ s.unspecifiedRun bytes.length
      freeIndex := s.freeIndex + bytes.length } := by
  induction bytes generalizing s with
  | nil => simp
  | cons b bytes ih =>
    rw [List.length_cons] at h
    rw [List.foldl_cons, addressByte_of_incomplete b (by omega), ih _ (by simp; omega)]
    rw [List.length_cons, Nat.add_comm bytes.length 1,
      unspecifiedRun_add (s := s) (t := (s.takeAddressByte b).respondUnspec) (m := 1) rfl (by simp),
      unspecifiedRun_one]
    simp [State.takeAddressByte, State.respondUnspec, State.unspecifiedByte, Nat.add_assoc]

/-- The whole address phase: all bytes but the last are accumulated, the last one completes it. -/
theorem foldl_addressByte_complete (bytes : List Byte) (s : State) (hb : bytes ≠ [])
    (h : s.op.addressBytesReceived + bytes.length = s.op.addressLength) :
    bytes.foldl addressByte s = State.respondUnspec (State.finishAddress { s with
      op := { s.op with
        accumulatedAddress := bytes.foldl appendAddressByte s.op.accumulatedAddress
        addressBytesReceived := s.op.addressLength }
      responses := s.responses ++ s.unspecifiedRun (bytes.length - 1)
      freeIndex := s.freeIndex + (bytes.length - 1) }) := by
  obtain ⟨init, last, rfl⟩ := List.eq_nil_or_concat bytes |>.resolve_left hb
  simp only [List.concat_eq_append, List.length_append, List.length_singleton] at h
  rw [List.concat_eq_append, List.foldl_append,
    foldl_addressByte_incomplete init s (by omega)]
  simp only [List.foldl_cons, List.foldl_nil]
  rw [addressByte_of_complete _ (by simp; omega)]
  simp [State.takeAddressByte, List.foldl_append, ← h, Nat.add_assoc]

/-! ## The erase -/

/-- An erase changes the store or logs one anomaly, and nothing else; with the latch clear it leaves
the store alone, and whatever it does to the store keeps the canonical form. -/
theorem executeErase_frame (s : State) :
    ∃ store logged, executeErase s = { s with store := store, log := s.log ++ logged } ∧
      logged.length ≤ 1 ∧ (s.wel = false → store = s.store) ∧
      ((∀ g, s.op.kind ≠ .erase g) → store = s.store) ∧
      (Memory.wf s.cfg.erased s.cfg.capacity s.store →
        Memory.wf s.cfg.erased s.cfg.capacity store) := by
  unfold executeErase
  split
  · rename_i g hk
    split
    · rename_i hw
      cases g with
      | sector =>
        by_cases h : sectorBase s.cfg.sectorSize s.op.accumulatedAddress + s.cfg.sectorSize
            ≤ s.cfg.capacity
        · simp only [State.storeFill, h, if_true, Option.getD_some]
          exact ⟨Memory.fill s.cfg.erased s.store (sectorBase s.cfg.sectorSize
            s.op.accumulatedAddress) s.cfg.sectorSize s.cfg.erased, [], by simp, by simp,
            by simp [hw], by simp [hk], fun hm => Memory.wf_fill hm h⟩
        · simp only [State.storeFill, h, if_false, Option.getD_none]
          exact ⟨_, _, rfl, by simp, by simp, by simp, id⟩
      | die =>
        simp only [State.storeFill, Nat.zero_add, Nat.le_refl, if_true, Option.getD_some]
        exact ⟨Memory.fill s.cfg.erased s.store 0 s.cfg.capacity s.cfg.erased, [], by simp,
          by simp, by simp [hw], by simp [hk], fun hm => Memory.wf_fill hm (by omega)⟩
    · exact ⟨_, _, rfl, by simp, by simp, by simp, id⟩
  · exact ⟨s.store, [], by simp, by simp, by simp, by simp, id⟩

/-- With the latch clear an erase is logged and does nothing (R141). -/
theorem executeErase_of_disabled {g : EraseGranularity} (hk : s.op.kind = .erase g)
    (hw : s.wel = false) :
    executeErase s = s.emit (.permErase g s.op.accumulatedAddress) := by
  simp [executeErase, hk, hw]

/-- A sector erase inside the store fills the sector (R143). -/
theorem executeErase_sector (hk : s.op.kind = .erase .sector) (hw : s.wel = true)
    (h : sectorBase s.cfg.sectorSize s.op.accumulatedAddress + s.cfg.sectorSize ≤ s.cfg.capacity) :
    executeErase s = { s with
      store := Memory.fill s.cfg.erased s.store
        (sectorBase s.cfg.sectorSize s.op.accumulatedAddress) s.cfg.sectorSize s.cfg.erased } := by
  simp [executeErase, hk, hw, State.storeFill, h]

/-- A sector erase beyond the store is logged and does nothing (R143). -/
theorem executeErase_sector_out_of_range (hk : s.op.kind = .erase .sector) (hw : s.wel = true)
    (h : s.cfg.capacity < sectorBase s.cfg.sectorSize s.op.accumulatedAddress + s.cfg.sectorSize) :
    executeErase s = s.emit (.boundsErase s.op.accumulatedAddress) := by
  simp [executeErase, hk, hw, State.storeFill, Nat.not_le.2 h]

/-- A die erase fills the store (R144). -/
theorem executeErase_die (hk : s.op.kind = .erase .die) (hw : s.wel = true) :
    executeErase s = { s with
      store := Memory.fill s.cfg.erased s.store 0 s.cfg.capacity s.cfg.erased } := by
  simp [executeErase, hk, hw, State.storeFill]

/-- In a configuration a block can have, a sector fits in the store exactly if the address does
(R143). -/
theorem sector_fits_iff {c : Cfg} (hc : c.wf = true) (a : Nat) :
    sectorBase c.sectorSize a + c.sectorSize ≤ c.capacity ↔ a < c.capacity := by
  simp only [Cfg.wf, Bool.and_eq_true, decide_eq_true_eq, beq_iff_eq] at hc
  obtain ⟨⟨⟨⟨-, hpos⟩, hdvd⟩, -⟩, -⟩ := hc
  obtain ⟨k, hk⟩ := Nat.dvd_of_mod_eq_zero hdvd
  have hq : sectorBase c.sectorSize a = c.sectorSize * (a / c.sectorSize) := by
    have := Nat.div_add_mod a c.sectorSize
    unfold sectorBase
    omega
  rw [hq, hk, ← Nat.mul_succ]
  rw [Nat.mul_le_mul_left_iff hpos, Nat.succ_le_iff, Nat.div_lt_iff_lt_mul hpos, Nat.mul_comm]

end Sys2Proof.Machine
end

