-- ==== Sys2Proof/Laws/DataPhase.lean ====
section
/-! SUPPORT. The data phase: what one data byte of each kind can do, said once. -/

namespace Sys2Proof.Machine

variable {s : State}

/-- Everything a data byte of a Read can do (R120). -/
theorem readByte_eq (s : State) (b : Byte) :
    readByte s b = { s with
      op := { s.op with bytesHandledInDataPhase := s.op.bytesHandledInDataPhase + 1 }
      responses := s.responses ++ [s.readAnswer s.op.effectiveAddress]
      log := s.log ++ (if s.op.effectiveAddress < s.cfg.capacity then []
        else [.boundsRead s.op.effectiveAddress]) } := by
  by_cases h : s.op.effectiveAddress < s.cfg.capacity <;>
    simp [readByte, State.storeRead, State.readAnswer, h, State.respond, State.emit,
      State.countDataByte]

/-- Everything a data byte of an Identify can do (R115). -/
theorem identifyByte_eq (s : State) (b : Byte) :
    identifyByte s b = { s with
      op := { s.op with bytesHandledInDataPhase := s.op.bytesHandledInDataPhase + 1 }
      responses := s.responses
        ++ [(s.cfg.idTable[s.op.bytesHandledInDataPhase]?).getD s.cfg.readFiller]
      log := s.log ++ (if s.op.bytesHandledInDataPhase < s.cfg.idTable.length then []
        else [.idOverrun s.op.bytesHandledInDataPhase]) } := by
  by_cases h : s.op.bytesHandledInDataPhase < s.cfg.idTable.length <;>
    simp [identifyByte, h, State.respond, State.emit, State.countDataByte]

/-- Everything a data byte of a register read can do (R150). -/
theorem readRegisterByte_eq (r : RegisterId) (s : State) (b : Byte) :
    readRegisterByte r s b = { s with
      op := { s.op with bytesHandledInDataPhase := s.op.bytesHandledInDataPhase + 1 }
      responses := s.responses ++ [s.registerByte r s.op.bytesHandledInDataPhase] } := rfl

/-- With the latch clear a data byte of a Program is echoed (R131). -/
theorem programByte_of_disabled (b : Byte) (hw : s.wel = false) :
    programByte s b = { s with
      op := { s.op with bytesHandledInDataPhase := s.op.bytesHandledInDataPhase + 1 }
      responses := s.responses ++ [b]
      log := s.log ++ [.permProgram b] } := by
  simp [programByte, hw, State.respond, State.emit, State.countDataByte]

/-- With the latch set a data byte of a Program is written, or rejected out of range (R130). -/
theorem programByte_of_enabled (b : Byte) (hw : s.wel = true) :
    programByte s b = { s with
      op := { s.op with bytesHandledInDataPhase := s.op.bytesHandledInDataPhase + 1 }
      store := if s.op.effectiveAddress < s.cfg.capacity
        then Memory.write s.cfg.erased s.store s.op.effectiveAddress b else s.store
      responses := s.responses ++ [s.unspecifiedByte]
      log := s.log ++ (if s.op.effectiveAddress < s.cfg.capacity then []
        else [.boundsProgram s.op.effectiveAddress b])
      freeIndex := s.freeIndex + 1 } := by
  by_cases h : s.op.effectiveAddress < s.cfg.capacity <;>
    simp [programByte, State.storeWrite, hw, h, State.respondUnspec, State.emit,
      State.countDataByte, State.unspecifiedByte]

/-- A register write changes the three writable registers or logs one anomaly, and nothing else; with
the latch clear only the enhanced-volatile register can change (R165, R167). -/
theorem writeRegister_frame (s : State) (r : RegisterId) (i : Nat) (b : Byte) :
    ∃ vcr nvcr evcr logged,
      s.writeRegister r i b
        = { s with vcr := vcr, nvcr := nvcr, evcr := evcr, log := s.log ++ logged } ∧
      logged.length ≤ 1 ∧ (s.wel = false → vcr = s.vcr ∧ nvcr = s.nvcr) ∧
      (r ≠ .volatileConfig → vcr = s.vcr) ∧ (r ≠ .nonVolatileConfig → nvcr = s.nvcr) ∧
      (r ≠ .enhancedVolatileConfig → evcr = s.evcr) := by
  cases r with
  | status => exact ⟨s.vcr, s.nvcr, s.evcr, _, rfl, by simp, by simp, by simp, by simp, by simp⟩
  | flagStatus => exact ⟨s.vcr, s.nvcr, s.evcr, _, rfl, by simp, by simp, by simp, by simp, by simp⟩
  | volatileConfig =>
    simp only [State.writeRegister]
    split
    · exact ⟨s.vcr, s.nvcr, s.evcr, _, rfl, by simp, by simp, by simp, by simp, by simp⟩
    · split
      · exact ⟨s.vcr, s.nvcr, s.evcr, _, rfl, by simp, by simp, by simp, by simp, by simp⟩
      · exact ⟨b, s.nvcr, s.evcr, [], by simp, by simp, by simp_all, by simp, by simp, by simp⟩
  | nonVolatileConfig =>
    simp only [State.writeRegister]
    split
    · exact ⟨s.vcr, s.nvcr, s.evcr, _, rfl, by simp, by simp, by simp, by simp, by simp⟩
    · split
      · exact ⟨s.vcr, s.nvcr, s.evcr, _, rfl, by simp, by simp, by simp, by simp, by simp⟩
      · split
        · exact ⟨s.vcr, withLowByte s.nvcr b, s.evcr, [], by simp, by simp, by simp_all, by simp,
            by simp, by simp⟩
        · exact ⟨s.vcr, withHighByte s.nvcr b, s.evcr, [], by simp, by simp, by simp_all, by simp,
            by simp, by simp⟩
  | enhancedVolatileConfig =>
    simp only [State.writeRegister]
    split
    · exact ⟨s.vcr, s.nvcr, s.evcr, _, rfl, by simp, by simp, by simp, by simp, by simp⟩
    · exact ⟨s.vcr, s.nvcr, b, [], by simp, by simp, by simp, by simp, by simp, by simp⟩

/-- Everything a data byte can do, whatever the kind of the operation: it is counted and answered, at
most one anomaly is logged, the store changes only for a Program with the latch set and stays in
canonical form, and the registers change only for a register write. -/
theorem dataByte_frame (s : State) (b : Byte) :
    ∃ store vcr nvcr evcr answer logged freeIndex,
      dataByte s b = { s with
        op := { s.op with bytesHandledInDataPhase := s.op.bytesHandledInDataPhase + 1 }
        store := store, vcr := vcr, nvcr := nvcr, evcr := evcr
        responses := s.responses ++ [answer], log := s.log ++ logged, freeIndex := freeIndex } ∧
      logged.length ≤ 1 ∧
      (s.wel = false → store = s.store ∧ vcr = s.vcr ∧ nvcr = s.nvcr) ∧
      (s.op.kind ≠ .program → store = s.store) ∧
      (Memory.wf s.cfg.erased s.cfg.capacity s.store →
        Memory.wf s.cfg.erased s.cfg.capacity store) := by
  unfold dataByte
  split
  · rw [readByte_eq]
    refine ⟨s.store, s.vcr, s.nvcr, s.evcr, _, _, s.freeIndex, rfl, ?_, by simp, by simp, id⟩
    split <;> simp
  · rw [identifyByte_eq]
    refine ⟨s.store, s.vcr, s.nvcr, s.evcr, _, _, s.freeIndex, rfl, ?_, by simp, by simp, id⟩
    split <;> simp
  · rename_i hk
    by_cases hw : s.wel = true
    · rw [programByte_of_enabled b hw]
      refine ⟨_, s.vcr, s.nvcr, s.evcr, _, _, _, rfl, ?_, by simp [hw], by simp [hk], fun hm => ?_⟩
      · split <;> simp
      · split
        · exact Memory.wf_write hm ‹_›
        · exact hm
    · rw [programByte_of_disabled b (by simpa using hw)]
      exact ⟨s.store, s.vcr, s.nvcr, s.evcr, _, _, s.freeIndex, rfl, by simp, by simp, by simp, id⟩
  · rename_i r hk
    exact ⟨s.store, s.vcr, s.nvcr, s.evcr, s.registerByte r s.op.bytesHandledInDataPhase, [],
      s.freeIndex, by simp [readRegisterByte_eq], by simp, by simp, by simp, id⟩
  · rename_i r hk
    obtain ⟨vcr, nvcr, evcr, logged, he, hl, hw, -⟩ :=
      writeRegister_frame s r s.op.bytesHandledInDataPhase b
    refine ⟨s.store, vcr, nvcr, evcr, s.unspecifiedByte, logged, s.freeIndex + 1, ?_, hl, fun h => ⟨rfl, hw h⟩, by simp, id⟩
    rw [writeRegisterByte, he]
    rfl
  · exact ⟨s.store, s.vcr, s.nvcr, s.evcr, s.unspecifiedByte, [], s.freeIndex + 1, by
      simp only [List.append_nil]; rfl, by simp, by simp, by simp, id⟩
  · exact ⟨s.store, s.vcr, s.nvcr, s.evcr, s.unspecifiedByte, [], s.freeIndex + 1, by
      simp only [List.append_nil]; rfl, by simp, by simp, by simp, id⟩

end Sys2Proof.Machine
end

