-- ==== Sys2Proof/Laws/Operands.lean ====
section
/-! SUPPORT. The operand forms: the two bytes of the non-volatile configuration register, and the
address length. -/

namespace Sys2Proof.Machine

theorem lowByte_toNat (v : HalfWord) : (lowByte v).toNat = v.toNat % 256 := by
  simp [lowByte]

theorem highByte_toNat (v : HalfWord) : (highByte v).toNat = v.toNat / 256 := by
  have : v.toNat < 65536 := v.isLt
  simp only [highByte, BitVec.extractLsb'_toNat, Nat.shiftRight_eq_div_pow]
  omega

/-- A low-byte write puts the byte below the register's high byte (R169). -/
theorem withLowByte_eq (v : HalfWord) (b : Byte) : withLowByte v b = highByte v ++ b := by
  apply BitVec.eq_of_getLsbD_eq
  intro i hi
  simp only [withLowByte, highByte, BitVec.getLsbD_append, BitVec.getLsbD_or, BitVec.getLsbD_and,
    BitVec.truncate_eq_setWidth, BitVec.getLsbD_setWidth, BitVec.getLsbD_extractLsb']
  have : i = 0 ∨ i = 1 ∨ i = 2 ∨ i = 3 ∨ i = 4 ∨ i = 5 ∨ i = 6 ∨ i = 7 ∨ i = 8 ∨ i = 9 ∨ i = 10 ∨
    i = 11 ∨ i = 12 ∨ i = 13 ∨ i = 14 ∨ i = 15 := by omega
  rcases this with h | h | h | h | h | h | h | h | h | h | h | h | h | h | h | h <;> subst h <;> simp

/-- A high-byte write puts the byte above the register's low byte (R169). -/
theorem withHighByte_eq (v : HalfWord) (b : Byte) : withHighByte v b = b ++ lowByte v := by
  apply BitVec.eq_of_getLsbD_eq
  intro i hi
  simp only [withHighByte, lowByte, BitVec.getLsbD_append, BitVec.getLsbD_or, BitVec.getLsbD_and,
    BitVec.truncate_eq_setWidth, BitVec.getLsbD_setWidth, BitVec.getLsbD_extractLsb',
    BitVec.getLsbD_shiftLeft]
  have : i = 0 ∨ i = 1 ∨ i = 2 ∨ i = 3 ∨ i = 4 ∨ i = 5 ∨ i = 6 ∨ i = 7 ∨ i = 8 ∨ i = 9 ∨ i = 10 ∨
    i = 11 ∨ i = 12 ∨ i = 13 ∨ i = 14 ∨ i = 15 := by omega
  rcases this with h | h | h | h | h | h | h | h | h | h | h | h | h | h | h | h <;> subst h <;> simp

theorem append_toNat (h l : Byte) : (h ++ l).toNat = h.toNat * 256 + l.toNat := by
  rw [BitVec.toNat_append, ← Nat.shiftLeft_add_eq_or_of_lt l.isLt, Nat.shiftLeft_eq]

theorem lowByte_append (h l : Byte) : lowByte (h ++ l) = l := by
  apply BitVec.eq_of_toNat_eq
  rw [lowByte_toNat, append_toNat]
  have : l.toNat < 256 := l.isLt
  omega

theorem highByte_append (h l : Byte) : highByte (h ++ l) = h := by
  apply BitVec.eq_of_toNat_eq
  rw [highByte_toNat, append_toNat]
  have : l.toNat < 256 := l.isLt
  omega

end Sys2Proof.Machine
end

