-- ==== Sys2Proof/Laws/PerInstr.lean ====
section
/-! SUPPORT. Facts about every instruction, one lemma per constructor. `OpcodeByte`: under any map that
binds its opcode byte to its class, the opcode byte alone decodes to the same row with no operand byte
yet (spec/30_encoding.md R71, R78). -/

namespace Sys2Proof.Laws.OpcodeByte

/-- The opcode byte of `i` alone spells the instruction of the same row that has no operand byte. -/
def Statement (i : Instr) : Prop :=
  ∀ (map : OpcodeMap) (addrLen : Nat), i.boundBy map →
    ∃ j : Instr, decode map addrLen [i.opcode] = .instr j [] ∧
      j.opcode = i.opcode ∧ j.opClass = i.opClass ∧ j.operands = []

theorem rdid2 (a : List Byte) : Statement (.rdid2 a) := fun map addrLen h =>
  ⟨.rdid2 [], by simp only [decode]; rw [h]; simp only [List.take_nil, List.drop_nil]; rfl, rfl, rfl, rfl⟩

theorem rdid (a : List Byte) : Statement (.rdid a) := fun map addrLen h =>
  ⟨.rdid [], by simp only [decode]; rw [h]; simp only [List.take_nil, List.drop_nil]; rfl, rfl, rfl, rfl⟩

theorem miordid (a : List Byte) : Statement (.miordid a) := fun map addrLen h =>
  ⟨.miordid [], by simp only [decode]; rw [h]; simp only [List.take_nil, List.drop_nil]; rfl, rfl, rfl, rfl⟩

theorem read (a b : List Byte) : Statement (.read a b) := fun map addrLen h =>
  ⟨.read [] [], by simp only [decode]; rw [h]; simp only [List.take_nil, List.drop_nil]; rfl, rfl, rfl, rfl⟩

theorem fastRead (a b : List Byte) : Statement (.fastRead a b) := fun map addrLen h =>
  ⟨.fastRead [] [], by simp only [decode]; rw [h]; simp only [List.take_nil, List.drop_nil]; rfl, rfl, rfl, rfl⟩

theorem dofr (a b : List Byte) : Statement (.dofr a b) := fun map addrLen h =>
  ⟨.dofr [] [], by simp only [decode]; rw [h]; simp only [List.take_nil, List.drop_nil]; rfl, rfl, rfl, rfl⟩

theorem diofr (a b : List Byte) : Statement (.diofr a b) := fun map addrLen h =>
  ⟨.diofr [] [], by simp only [decode]; rw [h]; simp only [List.take_nil, List.drop_nil]; rfl, rfl, rfl, rfl⟩

theorem qofr (a b : List Byte) : Statement (.qofr a b) := fun map addrLen h =>
  ⟨.qofr [] [], by simp only [decode]; rw [h]; simp only [List.take_nil, List.drop_nil]; rfl, rfl, rfl, rfl⟩

theorem qiofr (a b : List Byte) : Statement (.qiofr a b) := fun map addrLen h =>
  ⟨.qiofr [] [], by simp only [decode]; rw [h]; simp only [List.take_nil, List.drop_nil]; rfl, rfl, rfl, rfl⟩

theorem pp (a b : List Byte) : Statement (.pp a b) := fun map addrLen h =>
  ⟨.pp [] [], by simp only [decode]; rw [h]; simp only [List.take_nil, List.drop_nil]; rfl, rfl, rfl, rfl⟩

theorem difp (a b : List Byte) : Statement (.difp a b) := fun map addrLen h =>
  ⟨.difp [] [], by simp only [decode]; rw [h]; simp only [List.take_nil, List.drop_nil]; rfl, rfl, rfl, rfl⟩

theorem edifp (a b : List Byte) : Statement (.edifp a b) := fun map addrLen h =>
  ⟨.edifp [] [], by simp only [decode]; rw [h]; simp only [List.take_nil, List.drop_nil]; rfl, rfl, rfl, rfl⟩

theorem qifp (a b : List Byte) : Statement (.qifp a b) := fun map addrLen h =>
  ⟨.qifp [] [], by simp only [decode]; rw [h]; simp only [List.take_nil, List.drop_nil]; rfl, rfl, rfl, rfl⟩

theorem eqifp (a b : List Byte) : Statement (.eqifp a b) := fun map addrLen h =>
  ⟨.eqifp [] [], by simp only [decode]; rw [h]; simp only [List.take_nil, List.drop_nil]; rfl, rfl, rfl, rfl⟩

theorem se (a : List Byte) : Statement (.se a) := fun map addrLen h =>
  ⟨.se [], by simp only [decode]; rw [h]; simp only [List.take_nil, List.drop_nil]; rfl, rfl, rfl, rfl⟩

theorem de (a : List Byte) : Statement (.de a) := fun map addrLen h =>
  ⟨.de [], by simp only [decode]; rw [h]; simp only [List.take_nil, List.drop_nil]; rfl, rfl, rfl, rfl⟩

theorem wren : Statement .wren := fun map addrLen h =>
  ⟨.wren, by simp only [decode]; rw [h]; simp only [List.take_nil, List.drop_nil]; rfl, rfl, rfl, rfl⟩

theorem wrdi : Statement .wrdi := fun map addrLen h =>
  ⟨.wrdi, by simp only [decode]; rw [h]; simp only [List.take_nil, List.drop_nil]; rfl, rfl, rfl, rfl⟩

theorem rdsr (a : List Byte) : Statement (.rdsr a) := fun map addrLen h =>
  ⟨.rdsr [], by simp only [decode]; rw [h]; simp only [List.take_nil, List.drop_nil]; rfl, rfl, rfl, rfl⟩

theorem rfsr (a : List Byte) : Statement (.rfsr a) := fun map addrLen h =>
  ⟨.rfsr [], by simp only [decode]; rw [h]; simp only [List.take_nil, List.drop_nil]; rfl, rfl, rfl, rfl⟩

theorem rdvcr (a : List Byte) : Statement (.rdvcr a) := fun map addrLen h =>
  ⟨.rdvcr [], by simp only [decode]; rw [h]; simp only [List.take_nil, List.drop_nil]; rfl, rfl, rfl, rfl⟩

theorem rdnvcr (a : List Byte) : Statement (.rdnvcr a) := fun map addrLen h =>
  ⟨.rdnvcr [], by simp only [decode]; rw [h]; simp only [List.take_nil, List.drop_nil]; rfl, rfl, rfl, rfl⟩

theorem rdvecr (a : List Byte) : Statement (.rdvecr a) := fun map addrLen h =>
  ⟨.rdvecr [], by simp only [decode]; rw [h]; simp only [List.take_nil, List.drop_nil]; rfl, rfl, rfl, rfl⟩

theorem wrsr (a : List Byte) : Statement (.wrsr a) := fun map addrLen h =>
  ⟨.wrsr [], by simp only [decode]; rw [h]; simp only [List.take_nil, List.drop_nil]; rfl, rfl, rfl, rfl⟩

theorem wrvcr (a : List Byte) : Statement (.wrvcr a) := fun map addrLen h =>
  ⟨.wrvcr [], by simp only [decode]; rw [h]; simp only [List.take_nil, List.drop_nil]; rfl, rfl, rfl, rfl⟩

theorem wrnvcr (a : List Byte) : Statement (.wrnvcr a) := fun map addrLen h =>
  ⟨.wrnvcr [], by simp only [decode]; rw [h]; simp only [List.take_nil, List.drop_nil]; rfl, rfl, rfl, rfl⟩

theorem wrvecr (a : List Byte) : Statement (.wrvecr a) := fun map addrLen h =>
  ⟨.wrvecr [], by simp only [decode]; rw [h]; simp only [List.take_nil, List.drop_nil]; rfl, rfl, rfl, rfl⟩

end Sys2Proof.Laws.OpcodeByte
end

