-- ==== Sys2Proof/Laws/Step.lean ====
section
/-! SUPPORT. The step: what an opcode byte does, by its class (spec/40_transaction.md R91), and what a
byte does in every state of the machine. -/

namespace Sys2Proof.Machine

/-- What an opcode byte does, as R91 states it: by the class the map gives it. -/
def opcodeEffect (b : Byte) (s : State) : State :=
  match opClassOf s.cfg.opcodeMap b with
  | .writeEnable => s.setLatch true
  | .writeDisable => s.setLatch false
  | .identify => s.beginOperation .identify
  | .read => s.beginOperation .read
  | .program => s.beginOperation .program
  | .erase g => s.beginOperation (.erase g)
  | .readRegister r => s.beginOperation (.readRegister r)
  | .writeRegister r => s.beginOperation (.writeRegister r)
  | .unrecognized => undecodedByte (.unrecognized b) s

/-- Decoding an opcode byte and executing its instruction, as far as it has arrived, is what R91 says
its class does. -/
theorem opcodeByte_eq (b : Byte) (s : State) : opcodeByte b s = .next (opcodeEffect b s) := by
  simp only [opcodeByte, opcodeEffect, decode, List.take_nil, List.drop_nil]
  generalize opClassOf s.cfg.opcodeMap b = c
  cases c with
  | identify => simp only [spellIdentify]; split_ifs <;> rfl
  | read => simp only [spellRead]; split_ifs <;> rfl
  | program => simp only [spellProgram]; split_ifs <;> rfl
  | erase g => cases g <;> rfl
  | readRegister r => cases r <;> rfl
  | writeRegister r => cases r <;> rfl
  | writeEnable => rfl
  | writeDisable => rfl
  | unrecognized => rfl

/-- What a byte off the link does, in every state of the machine (R90). -/
def byteEffect (b : Byte) (s : State) : State :=
  match s.fsm with
  | .idle => opcodeEffect b s
  | .accAddrData => addressByte s b
  | .accAddrNoData => addressByte s b
  | .inDataPhase => dataByte s b
  | .noDataReady => s.respondUnspec

theorem byteEffect_of_idle {s : State} (b : Byte) (h : s.fsm = .idle) :
    byteEffect b s = opcodeEffect b s := by
  simp only [byteEffect, h]

theorem byteEffect_of_address {s : State} (b : Byte)
    (h : s.fsm = .accAddrData ∨ s.fsm = .accAddrNoData) : byteEffect b s = addressByte s b := by
  rcases h with h | h <;> simp only [byteEffect, h]

theorem byteEffect_of_data {s : State} (b : Byte) (h : s.fsm = .inDataPhase) :
    byteEffect b s = dataByte s b := by
  simp only [byteEffect, h]

theorem byteEffect_of_ready {s : State} (b : Byte) (h : s.fsm = .noDataReady) :
    byteEffect b s = s.respondUnspec := by
  simp only [byteEffect, h]

theorem linkByte_eq (b : Byte) (s : State) : linkByte b s = .next (byteEffect b s) := by
  unfold linkByte byteEffect
  cases s.fsm <;> first | exact opcodeByte_eq b s | rfl

/-- A step with an event pending takes it off the link and processes it. -/
theorem step_of_link_cons {s : State} {e : Event} {rest : List Event} (h : s.link = e :: rest) :
    step s = linkEvent e { s with link := rest } := by
  simp [step, h]

/-- Every outcome of a step, by the event it takes (R100). -/
theorem step_cases {s t : State} (h : step s = .next t) :
    (s.link = [] ∧ t = s) ∨
    (∃ b rest, s.link = .byte b :: rest ∧ t = byteEffect b { s with link := rest }) ∨
    (∃ rest, s.link = .endTransaction :: rest ∧ t = endTransaction { s with link := rest }) ∨
    (∃ rest, s.link = .reset :: rest ∧ t = deviceReset { s with link := rest }) := by
  unfold step at h
  split at h
  · rename_i hl
    simp only [Host.Outcome.next.injEq] at h
    exact .inl ⟨hl, h.symm⟩
  · rename_i e rest hl
    cases e with
    | byte b =>
      rw [linkEvent, linkByte_eq, Host.Outcome.next.injEq] at h
      exact .inr (.inl ⟨b, rest, hl, h.symm⟩)
    | endTransaction =>
      rw [linkEvent, Host.Outcome.next.injEq] at h
      exact .inr (.inr (.inl ⟨rest, hl, h.symm⟩))
    | reset =>
      rw [linkEvent, Host.Outcome.next.injEq] at h
      exact .inr (.inr (.inr ⟨rest, hl, h.symm⟩))

/-- Everything an opcode byte can do: it is answered, an operation may begin, the latch may change,
one anomaly may be logged; no register and no store byte changes (R91). -/
theorem opcodeEffect_frame (b : Byte) (s : State) :
    ∃ fsm op wel logged,
      opcodeEffect b s = { s with
        fsm := fsm, op := op, opcodeSeen := true, wel := wel
        responses := s.responses ++ [s.unspecifiedByte], log := s.log ++ logged
        freeIndex := s.freeIndex + 1 } ∧
      logged.length ≤ 1 ∧
      (wel ≠ s.wel → (opClassOf s.cfg.opcodeMap b = .writeEnable ∧ wel = true) ∨
        (opClassOf s.cfg.opcodeMap b = .writeDisable ∧ wel = false)) ∧
      ((fsm = s.fsm ∧ op = s.op) ∨ ∃ k : OpKind, k ≠ .none ∧ fsm = k.firstFsm ∧
        op = { DecodedOperation.empty with
          kind := k, addressLength := if k.hasAddress then s.addrLen else 0 }) := by
  unfold opcodeEffect
  cases hc : opClassOf s.cfg.opcodeMap b with
  | writeEnable => exact ⟨s.fsm, s.op, true, [], by simp; rfl, by simp, by simp, .inl ⟨rfl, rfl⟩⟩
  | writeDisable => exact ⟨s.fsm, s.op, false, [], by simp; rfl, by simp, by simp, .inl ⟨rfl, rfl⟩⟩
  | identify => exact ⟨_, _, s.wel, [], by simp; rfl, by simp, by simp, .inr ⟨.identify, by simp, rfl, rfl⟩⟩
  | read => exact ⟨_, _, s.wel, [], by simp; rfl, by simp, by simp, .inr ⟨.read, by simp, rfl, rfl⟩⟩
  | program => exact ⟨_, _, s.wel, [], by simp; rfl, by simp, by simp, .inr ⟨.program, by simp, rfl, rfl⟩⟩
  | erase g => exact ⟨_, _, s.wel, [], by simp; rfl, by simp, by simp, .inr ⟨.erase g, by simp, rfl, rfl⟩⟩
  | readRegister r =>
    exact ⟨_, _, s.wel, [], by simp; rfl, by simp, by simp, .inr ⟨.readRegister r, by simp, rfl, rfl⟩⟩
  | writeRegister r =>
    exact ⟨_, _, s.wel, [], by simp; rfl, by simp, by simp, .inr ⟨.writeRegister r, by simp, rfl, rfl⟩⟩
  | unrecognized =>
    exact ⟨s.fsm, s.op, s.wel, [.decodeFail b], rfl, by simp, by simp, .inl ⟨rfl, rfl⟩⟩

/-- Everything an address byte can do (R92): it is appended, counted and answered; the last one opens
the data phase, or executes the erase and with it may change the store or log one anomaly. -/
theorem addressByte_frame (s : State) (b : Byte) :
    ∃ fsm store logged,
      addressByte s b = { s with
        fsm := fsm
        op := { s.op with
          accumulatedAddress := appendAddressByte s.op.accumulatedAddress b
          addressBytesReceived := s.op.addressBytesReceived + 1 }
        store := store
        responses := s.responses ++ [s.unspecifiedByte]
        log := s.log ++ logged
        freeIndex := s.freeIndex + 1 } ∧
      logged.length ≤ 1 ∧ (s.wel = false → store = s.store) ∧
      (Memory.wf s.cfg.erased s.cfg.capacity s.store →
        Memory.wf s.cfg.erased s.cfg.capacity store) ∧
      ((∀ g, s.op.kind ≠ .erase g) → store = s.store) ∧
      (s.op.addressBytesReceived + 1 ≠ s.op.addressLength → fsm = s.fsm ∧ store = s.store) ∧
      (s.op.addressBytesReceived + 1 = s.op.addressLength →
        (s.fsm = .accAddrData → fsm = .inDataPhase ∧ store = s.store) ∧
        (s.fsm ≠ .accAddrData → fsm = .noDataReady)) := by
  by_cases h : s.op.addressBytesReceived + 1 = s.op.addressLength
  · rw [addressByte_of_complete b h]
    by_cases hf : s.fsm = .accAddrData
    · refine ⟨.inDataPhase, s.store, [], ?_, by simp, by simp, id, by simp, by simp [h],
        by simp [hf]⟩
      simp [State.finishAddress, hf, State.takeAddressByte, State.respondUnspec,
        State.unspecifiedByte]
    · obtain ⟨store, logged, he, hl, hw, hk, hm⟩ :=
        executeErase_frame { s.takeAddressByte b with fsm := .noDataReady }
      refine ⟨.noDataReady, store, logged, ?_, hl, hw, hm, hk, by simp [h], by simp [hf]⟩
      rw [State.finishAddress, if_neg (by simpa using hf), he]
      rfl
  · rw [addressByte_of_incomplete b h]
    exact ⟨s.fsm, s.store, [], by simp; rfl, by simp, by simp, id, by simp, by simp, by simp [h]⟩

/-- What holds of every byte off the link, in whatever state it is taken: `t` is the state after the
byte `b` in `s`. -/
structure ByteFrame (b : Byte) (s t : State) : Prop where
  cfg : t.cfg = s.cfg
  link : t.link = s.link
  answered : ∃ v, t.responses = s.responses ++ [v]
  logged : ∃ l : List Anomaly, t.log = s.log ++ l ∧ l.length ≤ 1
  storeWf : StoreInv s → StoreInv t
  disabled : s.wel = false → t.store = s.store ∧ t.vcr = s.vcr ∧ t.nvcr = s.nvcr
  latched : t.wel ≠ s.wel → s.fsm = .idle ∧
    ((opClassOf s.cfg.opcodeMap b = .writeEnable ∧ t.wel = true) ∨
     (opClassOf s.cfg.opcodeMap b = .writeDisable ∧ t.wel = false))
  stored : t.store ≠ s.store → s.wel = true ∧
    ((s.fsm = .inDataPhase ∧ s.op.kind = .program) ∨
     (s.fsm = .accAddrNoData ∧ (∃ g, s.op.kind = .erase g) ∧
      s.op.addressBytesReceived + 1 = s.op.addressLength))
  seen : t.opcodeSeen = if s.fsm = .idle then true else s.opcodeSeen

theorem opcodeEffect_byteFrame (b : Byte) {s : State} (hf : s.fsm = .idle) :
    ByteFrame b s (opcodeEffect b s) := by
  obtain ⟨fsm, op, wel, logged, he, hl, hw, -⟩ := opcodeEffect_frame b s
  rw [he]
  exact ⟨rfl, rfl, ⟨_, rfl⟩, ⟨_, rfl, hl⟩, id, by simp, fun h => ⟨hf, hw h⟩, by simp, by simp [hf]⟩

theorem addressByte_byteFrame (b : Byte) {s : State}
    (hf : s.fsm = .accAddrData ∨ s.fsm = .accAddrNoData) : ByteFrame b s (addressByte s b) := by
  obtain ⟨fsm, store, logged, he, hl, hw, hm, hk, h1, h2⟩ := addressByte_frame s b
  rw [he]
  refine ⟨rfl, rfl, ⟨_, rfl⟩, ⟨_, rfl, hl⟩, hm, fun h => ⟨hw h, rfl, rfl⟩, by simp, fun hs => ?_,
    by rcases hf with h | h <;> simp [h]⟩
  have hc : s.op.addressBytesReceived + 1 = s.op.addressLength := by
    by_contra hc
    exact hs (h1 hc).2
  refine ⟨by by_contra h; exact hs (hw (by simpa using h)), .inr ⟨?_, ?_, hc⟩⟩
  · exact hf.resolve_left fun h => hs ((h2 hc).1 h).2
  · by_contra hg
    push Not at hg
    exact hs (hk hg)

theorem dataByte_byteFrame (b : Byte) {s : State} (hf : s.fsm = .inDataPhase) :
    ByteFrame b s (dataByte s b) := by
  obtain ⟨store, vcr, nvcr, evcr, answer, logged, freeIndex, he, hl, hw, hp, hm⟩ := dataByte_frame s b
  rw [he]
  refine ⟨rfl, rfl, ⟨_, rfl⟩, ⟨_, rfl, hl⟩, hm, hw, by simp, fun hs => ⟨?_, .inl ⟨hf, ?_⟩⟩,
    by simp [hf]⟩
  · by_contra h
    exact hs (hw (by simpa using h)).1
  · by_contra h
    exact hs (hp h)

/-- Every byte off the link is answered by one byte and logs at most one anomaly; what it can do to the
latch and the store is said by the fields of `ByteFrame`. -/
theorem byteEffect_frame (b : Byte) (s : State) : ByteFrame b s (byteEffect b s) := by
  cases hf : s.fsm with
  | idle => rw [byteEffect_of_idle b hf]; exact opcodeEffect_byteFrame b hf
  | accAddrData => rw [byteEffect_of_address b (.inl hf)]; exact addressByte_byteFrame b (.inl hf)
  | accAddrNoData => rw [byteEffect_of_address b (.inr hf)]; exact addressByte_byteFrame b (.inr hf)
  | inDataPhase => rw [byteEffect_of_data b hf]; exact dataByte_byteFrame b hf
  | noDataReady =>
    rw [byteEffect_of_ready b hf]
    exact ⟨rfl, rfl, ⟨_, rfl⟩, ⟨[], by simp⟩, id, by simp, by simp, by simp, by simp [hf]⟩

end Sys2Proof.Machine
end

