-- ==== Sys2Proof/Laws/Transaction.lean ====
section
/-! SUPPORT. Whole transactions: the opcode byte with its address phase, and the data phase of each
kind of operation as one equation over all its bytes. -/

namespace Sys2Proof.Machine

variable {s : State}

/-! ## The opcode byte and the address phase -/

/-- The unspecified responses to an opcode byte and `n` bytes after it. -/
theorem unspecifiedRun_beginOperation (s : State) (k : OpKind) (n : Nat) :
    s.unspecifiedRun (1 + n) = s.unspecifiedByte :: (s.beginOperation k).unspecifiedRun n := by
  rw [unspecifiedRun_add (s := s) (t := s.beginOperation k) (m := 1) rfl (by simp), unspecifiedRun_one]
  rfl

/-- An operation whose address is still incomplete: the bytes are accumulated and answered. -/
theorem beginOperation_address_incomplete {k : OpKind} {address : List Byte}
    (ha : k.hasAddress = true) (hl : address.length < s.addrLen) :
    address.foldl addressByte (s.beginOperation k) = { s with
      fsm := k.firstFsm, opcodeSeen := true, op := operationAt k s.addrLen address 0
      responses := s.responses ++ s.unspecifiedRun (1 + address.length)
      freeIndex := s.freeIndex + (1 + address.length) } := by
  rw [foldl_addressByte_incomplete address _ (by simpa [ha, DecodedOperation.empty] using hl),
    unspecifiedRun_beginOperation s k]
  simp [operationAt, DecodedOperation.empty, addressValue, ha, Nat.add_assoc]

/-- An operation and its whole address, up to what the last address byte sets off. -/
theorem beginOperation_address {k : OpKind} {address : List Byte}
    (ha : k.hasAddress = true) (hl : address.length = s.addrLen) :
    address.foldl addressByte (s.beginOperation k) = State.respondUnspec (State.finishAddress { s with
      fsm := k.firstFsm, opcodeSeen := true, op := operationAt k s.addrLen address 0
      responses := s.responses ++ s.unspecifiedRun s.addrLen
      freeIndex := s.freeIndex + s.addrLen }) := by
  have h3 := addrLen_three_or_four s
  have hne : address ≠ [] := by
    rintro rfl
    simp only [List.length_nil] at hl
    omega
  rw [foldl_addressByte_complete address _ hne (by simp [ha, hl, DecodedOperation.empty])]
  have h1 : s.addrLen = 1 + (address.length - 1) := by omega
  have hr := unspecifiedRun_beginOperation s k (address.length - 1)
  rw [← h1] at hr
  rw [hr]
  simp [operationAt, DecodedOperation.empty, addressValue, ha, hl, Nat.add_assoc,
    show 1 + (s.addrLen - 1) = s.addrLen by omega]

/-- A Read or a Program and its whole address: the data phase is open (R92). -/
theorem beginOperation_address_data {k : OpKind} {address : List Byte}
    (hk : k.firstFsm = .accAddrData) (ha : k.hasAddress = true) (hl : address.length = s.addrLen) :
    address.foldl addressByte (s.beginOperation k) = { s with
      fsm := .inDataPhase, opcodeSeen := true, op := operationAt k s.addrLen address 0
      responses := s.responses ++ s.unspecifiedRun (1 + s.addrLen)
      freeIndex := s.freeIndex + (1 + s.addrLen) } := by
  rw [beginOperation_address ha hl, Nat.add_comm 1,
    unspecifiedRun_add (s := s) (t := { s with freeIndex := s.freeIndex + s.addrLen }) rfl rfl,
    unspecifiedRun_one]
  simp [State.finishAddress, hk, State.respondUnspec, State.unspecifiedByte, Nat.add_assoc]

/-- An Erase and its whole address: the erase is executed, then the last address byte answered (R92). -/
theorem beginOperation_address_erase {g : EraseGranularity} {address : List Byte}
    (hl : address.length = s.addrLen) :
    address.foldl addressByte (s.beginOperation (.erase g))
      = State.respondUnspec (executeErase { s with
        fsm := .noDataReady, opcodeSeen := true, op := operationAt (.erase g) s.addrLen address 0
        responses := s.responses ++ s.unspecifiedRun s.addrLen
        freeIndex := s.freeIndex + s.addrLen }) := by
  rw [beginOperation_address (by rfl) hl]
  simp [State.finishAddress, OpKind.firstFsm]

/-! ## The data phase -/

/-- The data phase of an Identify (R115). -/
theorem foldl_identifyByte (bytes : List Byte) (s : State) :
    bytes.foldl identifyByte s = { s with
      op := { s.op with
        bytesHandledInDataPhase := s.op.bytesHandledInDataPhase + bytes.length }
      responses := s.responses ++ (List.range' s.op.bytesHandledInDataPhase bytes.length).map
        fun i => (s.cfg.idTable[i]?).getD s.cfg.readFiller
      log := s.log ++ (List.range' s.op.bytesHandledInDataPhase bytes.length).flatMap
        fun i => if i < s.cfg.idTable.length then [] else [.idOverrun i] } := by
  induction bytes generalizing s with
  | nil => simp
  | cons b bytes ih =>
    rw [List.foldl_cons, ih, identifyByte_eq]
    simp [List.range'_succ, Nat.add_assoc, Nat.add_comm 1]

/-- The data phase of a Read (R121). -/
theorem foldl_readByte (bytes : List Byte) (s : State) :
    bytes.foldl readByte s = { s with
      op := { s.op with
        bytesHandledInDataPhase := s.op.bytesHandledInDataPhase + bytes.length }
      responses := s.responses ++ (List.range' s.op.bytesHandledInDataPhase bytes.length).map
        fun i => s.readAnswer (s.op.accumulatedAddress + i)
      log := s.log ++ (List.range' s.op.bytesHandledInDataPhase bytes.length).flatMap
        fun i => if s.op.accumulatedAddress + i < s.cfg.capacity then []
          else [.boundsRead (s.op.accumulatedAddress + i)] } := by
  induction bytes generalizing s with
  | nil => simp
  | cons b bytes ih =>
    rw [List.foldl_cons, ih, readByte_eq]
    simp only [List.length_cons, List.range'_succ, List.map_cons, List.flatMap_cons, Nat.add_assoc,
      Nat.add_comm 1, List.append_assoc, List.singleton_append]
    rfl

/-- The data phase of a Program with the latch clear (R131). -/
theorem foldl_programByte_disabled (bytes : List Byte) (s : State) (hw : s.wel = false) :
    bytes.foldl programByte s = { s with
      op := { s.op with
        bytesHandledInDataPhase := s.op.bytesHandledInDataPhase + bytes.length }
      responses := s.responses ++ bytes
      log := s.log ++ bytes.map .permProgram } := by
  induction bytes generalizing s with
  | nil => simp
  | cons b bytes ih =>
    rw [List.foldl_cons, programByte_of_disabled _ hw, ih _ (by exact hw)]
    simp [Nat.add_assoc, Nat.add_comm 1]

/-- The data phase of a Program with the latch set (R130, R133, R134): the store stays in canonical
form, and byte `i` stands at base plus `i` where that is inside it. -/
theorem foldl_programByte_enabled (bytes : List Byte) (s : State) (hw : s.wel = true)
    (hm : StoreInv s) :
    ∃ store, bytes.foldl programByte s = { s with
        op := { s.op with
          bytesHandledInDataPhase := s.op.bytesHandledInDataPhase + bytes.length }
        store := store
        responses := s.responses ++ s.unspecifiedRun bytes.length
        log := s.log ++ s.programAnomalies s.op.effectiveAddress bytes
        freeIndex := s.freeIndex + bytes.length } ∧
      Memory.wf s.cfg.erased s.cfg.capacity store ∧
      ∀ a, Memory.read s.cfg.erased store a =
        if s.op.effectiveAddress ≤ a ∧ a < s.op.effectiveAddress + bytes.length ∧ a < s.cfg.capacity
        then bytes.getD (a - s.op.effectiveAddress) 0 else s.byteAt a := by
  induction bytes generalizing s with
  | nil =>
    refine ⟨s.store, by simp [State.programAnomalies], hm, fun a => ?_⟩
    have : ¬(s.op.effectiveAddress ≤ a ∧
      a < s.op.effectiveAddress + ([] : List Byte).length ∧ a < s.cfg.capacity) := by
      simp only [List.length_nil]
      omega
    rw [if_neg this]
    rfl
  | cons b bytes ih =>
    rw [List.foldl_cons, programByte_of_enabled _ hw]
    set u : State := { s with
      op := { s.op with bytesHandledInDataPhase := s.op.bytesHandledInDataPhase + 1 }
      store := if s.op.effectiveAddress < s.cfg.capacity
        then Memory.write s.cfg.erased s.store s.op.effectiveAddress b else s.store
      responses := s.responses ++ [s.unspecifiedByte]
      log := s.log ++ (if s.op.effectiveAddress < s.cfg.capacity then []
        else [.boundsProgram s.op.effectiveAddress b])
      freeIndex := s.freeIndex + 1 } with hu
    have hue : u.op.effectiveAddress = s.op.effectiveAddress + 1 := by
      simp [hu, DecodedOperation.effectiveAddress, Nat.add_assoc]
    have hmu : StoreInv u := by
      unfold StoreInv
      simp only [hu]
      split
      · exact Memory.wf_write hm ‹_›
      · exact hm
    obtain ⟨store, he, hwf, hr⟩ := ih u hw hmu
    refine ⟨store, ?_, hwf, fun a => ?_⟩
    · rw [he, hue, List.length_cons, Nat.add_comm bytes.length 1,
        unspecifiedRun_add (s := s) (t := u) (m := 1) rfl rfl, unspecifiedRun_one]
      simp only [State.programAnomalies, List.zipIdx_cons, List.flatMap_cons, hu, Nat.add_assoc,
        List.append_assoc]
    · refine (hr a).trans ?_
      have hb : u.byteAt a = if s.op.effectiveAddress < s.cfg.capacity ∧ a = s.op.effectiveAddress
          then b else s.byteAt a := by
        simp only [State.byteAt, hu]
        by_cases h1 : s.op.effectiveAddress < s.cfg.capacity
        · by_cases h2 : a = s.op.effectiveAddress
          · subst h2
            simp [h1, Memory.read_write_same hm]
          · simp [h1, h2, Memory.read_write_other h2]
        · simp [h1]
      rw [hb, hue, show u.cfg.capacity = s.cfg.capacity from rfl]
      generalize s.op.effectiveAddress = e
      by_cases h1 : a = e
      · subst h1
        simp
      · by_cases h2 : e + 1 ≤ a ∧ a < e + 1 + bytes.length ∧ a < s.cfg.capacity
        · rw [if_pos h2, if_pos (by simp; omega), show a - e = (a - (e + 1)) + 1 by omega]
          simp
        · rw [if_neg h2, if_neg (by simp [h1]), if_neg (by simp; omega)]

/-- The data phase of a register read (R150): the answers come from the state it began in. -/
theorem foldl_readRegisterByte (r : RegisterId) (bytes : List Byte) (s : State) :
    bytes.foldl (readRegisterByte r) s = { s with
      op := { s.op with
        bytesHandledInDataPhase := s.op.bytesHandledInDataPhase + bytes.length }
      responses := s.responses ++ (List.range' s.op.bytesHandledInDataPhase bytes.length).map
        (s.registerByte r) } := by
  induction bytes generalizing s with
  | nil => simp
  | cons b bytes ih =>
    rw [List.foldl_cons, ih, readRegisterByte_eq]
    simp only [List.length_cons, List.range'_succ, List.map_cons, Nat.add_assoc, Nat.add_comm 1,
      List.append_assoc, List.singleton_append]
    cases r <;> rfl

/-- The data phase of a register write in which every byte is rejected: byte `b` at index `i` is logged
as `f i b` and nothing is written. -/
theorem foldl_writeRegisterByte_rejected {r : RegisterId} {f : Nat → Byte → Anomaly}
    (bytes : List Byte) (s : State)
    (hr : ∀ t : State, t.wel = s.wel → ∀ i b, s.op.bytesHandledInDataPhase ≤ i →
      t.writeRegister r i b = t.emit (f i b)) :
    bytes.foldl (writeRegisterByte r) s = { s with
      op := { s.op with
        bytesHandledInDataPhase := s.op.bytesHandledInDataPhase + bytes.length }
      responses := s.responses ++ s.unspecifiedRun bytes.length
      log := s.log ++ (bytes.zipIdx s.op.bytesHandledInDataPhase).map fun (b, i) => f i b
      freeIndex := s.freeIndex + bytes.length } := by
  induction bytes generalizing s with
  | nil => simp
  | cons b bytes ih =>
    have h1 : writeRegisterByte r s b = { s with
        op := { s.op with bytesHandledInDataPhase := s.op.bytesHandledInDataPhase + 1 }
        responses := s.responses ++ [s.unspecifiedByte]
        log := s.log ++ [f s.op.bytesHandledInDataPhase b]
        freeIndex := s.freeIndex + 1 } := by
      rw [writeRegisterByte, hr s rfl _ b (Nat.le_refl _)]
      rfl
    rw [List.foldl_cons, h1, ih _ (by exact fun t ht i b hi => hr t ht i b (Nat.le_of_succ_le hi)),
      List.length_cons, Nat.add_comm bytes.length 1, ← h1,
      unspecifiedRun_add (s := s) (t := writeRegisterByte r s b) (m := 1) (by rw [h1]) (by rw [h1]),
      unspecifiedRun_one, h1]
    simp [Nat.add_assoc]

end Sys2Proof.Machine
end

