-- ==== Sys2Proof/Laws/Unread.lean ====
section
/-! SUPPORT. What no byte off the link reads: the rest of the link, the ghost bit and the outputs. With
it, a run of the bytes at the head of the link is one fold of `byteEffect`. -/

namespace Sys2Proof.Machine

/-- `s` with other fields in the places that no byte off the link reads. -/
def State.withUnread (s : State) (link : List Event) (seen : Bool) (responses : List Byte)
    (log : List Anomaly) : State :=
  { s with link := link, opcodeSeen := seen, responses := responses, log := log }

/-- What becomes of those fields is what becomes of them in `s`. -/
def State.unreadAfter (s t : State) (link : List Event) (seen : Bool) (responses : List Byte)
    (log : List Anomaly) : State :=
  { t with
    link := link
    opcodeSeen := if s.fsm = .idle then t.opcodeSeen else seen
    responses := responses ++ t.responses.drop s.responses.length
    log := log ++ t.log.drop s.log.length }

variable (link : List Event) (seen : Bool) (responses : List Byte) (log : List Anomaly)

theorem opcodeEffect_unread (b : Byte) (s : State) (hf : s.fsm = .idle) :
    opcodeEffect b (s.withUnread link seen responses log)
      = s.unreadAfter (opcodeEffect b s) link seen responses log := by
  obtain ⟨cfg, fsm, op, seen', wel, vcr, nvcr, evcr, store, link', resp, log', fi⟩ := s
  obtain rfl : fsm = .idle := hf
  simp only [opcodeEffect, State.withUnread]
  cases opClassOf cfg.opcodeMap b <;>
    simp [State.unreadAfter, State.setLatch, State.beginOperation, State.respondUnspec, undecodedByte, State.emit, State.unspecifiedByte, State.addrLen]

theorem executeErase_unread (s : State) (hf : s.fsm ≠ .idle) :
    executeErase (s.withUnread link seen responses log)
      = s.unreadAfter (executeErase s) link seen responses log := by
  obtain ⟨cfg, fsm, ⟨kind, al, ar, acc, n⟩, seen', wel, vcr, nvcr, evcr, store, link', resp, log', fi⟩ := s
  have hf : fsm ≠ .idle := hf
  cases kind with
  | erase g =>
    cases wel with
    | false => simp [executeErase, State.withUnread, State.unreadAfter, State.emit, hf]
    | true =>
      cases g with
      | sector => 
        by_cases h : sectorBase cfg.sectorSize acc + cfg.sectorSize ≤ cfg.capacity <;>
          simp [executeErase, State.withUnread, State.unreadAfter, State.emit, hf, h, State.storeFill]
      | die => simp [executeErase, State.withUnread, State.unreadAfter, hf, State.storeFill]
  | _ => simp [executeErase, State.withUnread, State.unreadAfter, hf]

theorem addressByte_unread (b : Byte) (s : State) (hf : s.fsm ≠ .idle) :
    addressByte (s.withUnread link seen responses log) b
      = s.unreadAfter (addressByte s b) link seen responses log := by
  by_cases h : s.op.addressBytesReceived + 1 = s.op.addressLength
  · rw [addressByte_of_complete b h, addressByte_of_complete (s := s.withUnread link seen responses log) b h]
    by_cases hf' : s.fsm = .accAddrData
    · simp [State.finishAddress, hf', State.takeAddressByte, State.respondUnspec, State.unspecifiedByte, State.withUnread, State.unreadAfter]
    · have := executeErase_unread link seen responses log { s.takeAddressByte b with fsm := .noDataReady } (by simp)
      have e : ((s.withUnread link seen responses log).takeAddressByte b).finishAddress = executeErase (State.withUnread { s.takeAddressByte b with fsm := .noDataReady } link seen responses log) := by
        simp [State.finishAddress, hf', State.withUnread]
      have e2 : (s.takeAddressByte b).finishAddress = executeErase { s.takeAddressByte b with fsm := .noDataReady } := by
        simp [State.finishAddress, hf']
      rw [e, this, e2]
      obtain ⟨store, logged, he, -⟩ := executeErase_frame { s.takeAddressByte b with fsm := .noDataReady }
      rw [he]
      simp [State.unreadAfter, State.respondUnspec, State.unspecifiedByte, hf]
  · rw [addressByte_of_incomplete b h, addressByte_of_incomplete (s := s.withUnread link seen responses log) b h]
    simp [State.withUnread, State.unreadAfter, State.takeAddressByte, State.respondUnspec, State.unspecifiedByte, hf]

theorem dataByte_unread (b : Byte) (s : State) (hf : s.fsm ≠ .idle) :
    dataByte (s.withUnread link seen responses log) b
      = s.unreadAfter (dataByte s b) link seen responses log := by
  obtain ⟨cfg, fsm, ⟨kind, al, ar, acc, n⟩, seen', wel, vcr, nvcr, evcr, store, link', resp, log', fi⟩ := s
  have hf : fsm ≠ .idle := hf
  simp only [dataByte, State.withUnread]
  cases kind with
  | read =>
    simp only [readByte_eq]
    simp [State.unreadAfter, hf, State.readAnswer, State.byteAt]
  | identify => simp only [identifyByte_eq]; simp [State.unreadAfter, hf]
  | program =>
    cases wel with
    | true => rw [programByte_of_enabled b rfl, programByte_of_enabled b rfl]; simp [State.unreadAfter, hf, State.unspecifiedByte]
    | false => rw [programByte_of_disabled b rfl, programByte_of_disabled b rfl]; simp [State.unreadAfter, hf]
  | readRegister r => cases r <;> simp [readRegisterByte_eq, State.registerByte, State.unreadAfter, hf, State.statusRegister, State.flagStatusRegister, State.addrLen]
  | writeRegister r => 
    simp only [writeRegisterByte]
    cases r <;> simp only [State.writeRegister] <;> (try split_ifs) <;> simp [State.unreadAfter, hf, State.unspecifiedByte, State.respondUnspec, State.countDataByte, State.emit]
  | none => simp [State.unreadAfter, hf, State.unspecifiedByte, State.respondUnspec, State.countDataByte]
  | erase g => simp [State.unreadAfter, hf, State.unspecifiedByte, State.respondUnspec, State.countDataByte]

theorem byteEffect_unread (b : Byte) (s : State) :
    byteEffect b (s.withUnread link seen responses log)
      = s.unreadAfter (byteEffect b s) link seen responses log := by
  cases hf : s.fsm with
  | idle =>
    rw [byteEffect_of_idle b hf, byteEffect_of_idle (s := s.withUnread link seen responses log) b hf]
    exact opcodeEffect_unread link seen responses log b s hf
  | accAddrData =>
    rw [byteEffect_of_address b (.inl hf), byteEffect_of_address (s := s.withUnread link seen responses log) b (.inl hf)]
    exact addressByte_unread link seen responses log b s (by simp [hf])
  | accAddrNoData =>
    rw [byteEffect_of_address b (.inr hf), byteEffect_of_address (s := s.withUnread link seen responses log) b (.inr hf)]
    exact addressByte_unread link seen responses log b s (by simp [hf])
  | inDataPhase =>
    rw [byteEffect_of_data b hf, byteEffect_of_data (s := s.withUnread link seen responses log) b hf]
    exact dataByte_unread link seen responses log b s (by simp [hf])
  | noDataReady =>
    rw [byteEffect_of_ready b hf, byteEffect_of_ready (s := s.withUnread link seen responses log) b hf]
    simp [State.unreadAfter, State.withUnread, hf, State.respondUnspec, State.unspecifiedByte]

/-- The rest of the link plays no part in what a byte does. -/
theorem byteEffect_link (b : Byte) (s : State) (rest : List Event) :
    byteEffect b { s with link := rest } = { byteEffect b s with link := rest } := by
  have h := byteEffect_unread rest s.opcodeSeen s.responses s.log b s
  have f := byteEffect_frame b s
  obtain ⟨v, hv⟩ := f.answered
  obtain ⟨l, hl, -⟩ := f.logged
  have hs := f.seen
  refine h.trans ?_
  unfold State.unreadAfter
  rw [hv, hl, hs]
  simp only [List.drop_left]
  generalize byteEffect b s = t at *
  obtain ⟨cfg, fsm, op, seen, wel, vcr, nvcr, evcr, store, link, resp, log, fi⟩ := t
  simp only at hv hl hs
  subst hv hl hs
  split <;> rfl

theorem run_succ {s t : State} (h : step s = .next t) (n : Nat) :
    Host.Core.run core (n + 1) s = Host.Core.run core n t := by
  have h' : core.step s = .next t := h
  simp only [Host.Core.run, h']

/-- The effect of a run of bytes. -/
def runBytes (bytes : List Byte) (s : State) : State :=
  bytes.foldl (fun t b => byteEffect b t) s

/-- A run over the bytes at the head of the link. -/
theorem run_bytes (bytes : List Byte) (s : State) (rest : List Event)
    (hl : s.link = bytes.map Event.byte ++ rest) :
    Host.Core.run core bytes.length s = .next (runBytes bytes { s with link := rest }) := by
  induction bytes generalizing s with
  | nil =>
    obtain rfl : rest = s.link := by simpa using hl.symm
    rfl
  | cons b bytes ih =>
    have h : step s = .next (byteEffect b { s with link := bytes.map Event.byte ++ rest }) := by
      rw [step_of_link_cons (by simpa using hl), linkEvent, linkByte_eq]
    refine (run_succ h _).trans ((ih _ (by rw [byteEffect_link])).trans (congrArg _ ?_))
    show runBytes bytes _ = runBytes bytes (byteEffect b { s with link := rest })
    rw [byteEffect_link b s (bytes.map Event.byte ++ rest), byteEffect_link b s rest]

end Sys2Proof.Machine
end

