-- ==== Sys2Proof/Tests/Slice0.lean ====
section
/-! SUPPORT. The model's own tests. The expected values are the spec's: worked examples of its rules and
the vectors of spec/95_test_vectors.md (named in each docstring), written out by hand. The second half
holds, for every obligation with hypotheses, a concrete state and operands that meet them. -/

namespace Sys2Proof.Tests

open Sys2Proof.Machine

/-! ## Helpers -/

/-- `P0`, the power-on state of a 1 MiB block with the default configuration. -/
def p0 : State := powerOn Cfg.default

/-- `P0+W`: the latch set. -/
def p0w : State := { p0 with wel := true }

/-- A state with store bytes. -/
def holding (m : Memory) (s : State) : State := { s with store := m }

/-- A state with events on its link. -/
def receiving (events : List Event) (s : State) : State := { s with link := events }

/-- In 4-byte mode. -/
def wide (s : State) : State := { s with nvcr := 0xFFFE }

/-- What holds of the next state, if there is one. -/
def next {α : Type} (f : State → α) : Host.Outcome State Fault Refusal → Option α
  | .next t => some (f t)
  | .fault _ => none
  | .refused _ => none

/-- `RD` of 95_test_vectors.md section 2.3. -/
def rd : State := holding [(0x10, 0xAB), (0x11, 0xCD)] p0

/-- `ER` of 95_test_vectors.md section 2.5. -/
def er : State :=
  holding [(0x01FFFF, 0x11), (0x020000, 0x22), (0x02FFFF, 0x33), (0x030000, 0x44)] p0w

/-- A Program of which two of three address bytes have arrived. -/
def midProgram : State :=
  { p0w with fsm := .accAddrData, opcodeSeen := true, op := operationAt .program 3 [0x00, 0x00] 0 }

/-- A sector erase of which two of three address bytes have arrived. -/
def midErase : State :=
  { p0w with
    fsm := .accAddrNoData, opcodeSeen := true, op := operationAt (.erase .sector) 3 [0x02, 0xAB] 0 }

/-- A completed sector erase. -/
def erased : State :=
  { p0w with
    fsm := .noDataReady, opcodeSeen := true
    op := operationAt (.erase .sector) 3 [0x02, 0xAB, 0xCD] 0 }

/-- A register write after `n` data bytes. -/
def writing (r : RegisterId) (n : Nat) : State :=
  { p0w with fsm := .inDataPhase, opcodeSeen := true, op := operationWithData (.writeRegister r) n }

/-- A register read after `n` data bytes. -/
def reading (r : RegisterId) (n : Nat) : State :=
  { p0w with fsm := .inDataPhase, opcodeSeen := true, op := operationWithData (.readRegister r) n }

/-- A Program in its data phase. -/
def programming : State :=
  { p0w with
    fsm := .inDataPhase, opcodeSeen := true, op := operationAt .program 3 [0x00, 0x00, 0x10] 0 }

/-! ## Well-formedness: an ill-formed term for each check -/

theorem test_wf_refuses_address_too_long : (Instr.read [0, 0, 0, 0] []).wf 3 = false := by decide
theorem test_wf_refuses_data_after_short_address : (Instr.read [0, 0] [0]).wf 3 = false := by decide
theorem test_wf_refuses_program_address_too_long : (Instr.pp [0, 0, 0, 0] []).wf 3 = false := by decide
theorem test_wf_refuses_program_data_after_short_address :
    (Instr.eqifp [0, 0, 0] [0]).wf 4 = false := by decide
theorem test_wf_refuses_erase_address_too_long : (Instr.se [0, 0, 0, 0]).wf 3 = false := by decide
theorem test_wf_refuses_die_address_too_long : (Instr.de [0, 0, 0, 0, 0]).wf 4 = false := by decide
theorem test_wf_takes_short_address : (Instr.read [0, 0] []).wf 3 = true := by decide
theorem test_wf_takes_whole_address_and_data : (Instr.pp [0, 0, 0, 0] [1, 2]).wf 4 = true := by decide

theorem test_cfg_wf : Cfg.default.wf = true ∧ Cfg.cautious.wf = true := by decide
theorem test_cfg_wf_refuses_capacity : ({ Cfg.default with capacity := 0x180000 }).wf = false := by
  decide
theorem test_cfg_wf_refuses_no_sector : ({ Cfg.default with sectorSize := 0 }).wf = false := by decide
theorem test_cfg_wf_refuses_broken_sector :
    ({ Cfg.default with sectorSize := 0x30000 }).wf = false := by decide
theorem test_cfg_wf_refuses_wide_reset : ({ Cfg.default with nvcrReset := 0xFFFE }).wf = false := by
  decide
theorem test_cfg_wf_refuses_latched_reset : ({ Cfg.default with srReset := 0x02 }).wf = false := by
  decide

/-! ## Decoding: words written out from the tables of R70 and R78 -/

theorem test_decode_identify :
    decode defaultOpcodeMap 3 [0x9E, 0x00] = .instr (.rdid2 [0x00]) [] ∧
    decode defaultOpcodeMap 3 [0x9F, 0x00, 0x01] = .instr (.rdid [0x00, 0x01]) [] ∧
    decode defaultOpcodeMap 3 [0xAF] = .instr (.miordid []) [] := by decide

theorem test_decode_read :
    decode defaultOpcodeMap 3 [0x03, 0x01, 0x23, 0x45, 0x00]
      = .instr (.read [0x01, 0x23, 0x45] [0x00]) [] ∧
    decode defaultOpcodeMap 3 [0x0B, 0x01, 0x23, 0x45] = .instr (.fastRead [0x01, 0x23, 0x45] []) [] ∧
    decode defaultOpcodeMap 3 [0x3B, 0x01, 0x23] = .instr (.dofr [0x01, 0x23] []) [] ∧
    decode defaultOpcodeMap 4 [0xBB, 0x01, 0x23, 0x45, 0x67]
      = .instr (.diofr [0x01, 0x23, 0x45, 0x67] []) [] ∧
    decode defaultOpcodeMap 3 [0x6B, 0x01, 0x23, 0x45, 0x67]
      = .instr (.qofr [0x01, 0x23, 0x45] [0x67]) [] ∧
    decode defaultOpcodeMap 3 [0xEB] = .instr (.qiofr [] []) [] := by decide

theorem test_decode_program :
    decode defaultOpcodeMap 3 [0x02, 0x00, 0x00, 0x10, 0xAB, 0xCD]
      = .instr (.pp [0x00, 0x00, 0x10] [0xAB, 0xCD]) [] ∧
    decode defaultOpcodeMap 3 [0xA2, 0x00, 0x00, 0x20, 0x11]
      = .instr (.difp [0x00, 0x00, 0x20] [0x11]) [] ∧
    decode defaultOpcodeMap 3 [0xD2, 0x00, 0x01, 0x00, 0x5A]
      = .instr (.edifp [0x00, 0x01, 0x00] [0x5A]) [] ∧
    decode defaultOpcodeMap 4 [0x32, 0x00, 0x01, 0x00, 0x5A]
      = .instr (.qifp [0x00, 0x01, 0x00, 0x5A] []) [] ∧
    decode defaultOpcodeMap 3 [0x38, 0x0F, 0xFF, 0xFF, 0x01]
      = .instr (.eqifp [0x0F, 0xFF, 0xFF] [0x01]) [] := by decide

theorem test_decode_erase :
    decode defaultOpcodeMap 3 [0xD8, 0x02, 0xAB, 0xCD, 0x55] = .instr (.se [0x02, 0xAB, 0xCD]) [0x55] ∧
    decode defaultOpcodeMap 4 [0xC4, 0x00, 0x00, 0x00, 0x00]
      = .instr (.de [0x00, 0x00, 0x00, 0x00]) [] := by decide

theorem test_decode_latch :
    decode defaultOpcodeMap 3 [0x06, 0x02] = .instr .wren [0x02] ∧
    decode defaultOpcodeMap 3 [0x04] = .instr .wrdi [] := by decide

theorem test_decode_register_read :
    decode defaultOpcodeMap 3 [0x05, 0x00] = .instr (.rdsr [0x00]) [] ∧
    decode defaultOpcodeMap 3 [0x70, 0x00] = .instr (.rfsr [0x00]) [] ∧
    decode defaultOpcodeMap 3 [0x85] = .instr (.rdvcr []) [] ∧
    decode defaultOpcodeMap 3 [0xB5, 0x00, 0x00, 0x00] = .instr (.rdnvcr [0x00, 0x00, 0x00]) [] ∧
    decode defaultOpcodeMap 3 [0x65, 0x00] = .instr (.rdvecr [0x00]) [] := by decide

theorem test_decode_register_write :
    decode defaultOpcodeMap 3 [0x01, 0xFF] = .instr (.wrsr [0xFF]) [] ∧
    decode defaultOpcodeMap 3 [0x81, 0xAB] = .instr (.wrvcr [0xAB]) [] ∧
    decode defaultOpcodeMap 3 [0xB1, 0xFE, 0xFF] = .instr (.wrnvcr [0xFE, 0xFF]) [] ∧
    decode defaultOpcodeMap 3 [0x61, 0x7F] = .instr (.wrvecr [0x7F]) [] := by decide

theorem test_decode_rejects :
    decode defaultOpcodeMap 3 [] = .rejected .noByte ∧
    decode defaultOpcodeMap 3 [0xFF] = .rejected (.unrecognized 0xFF) ∧
    decode [(0x02, .writeRegister .flagStatus)] 3 [0x02] = .rejected (.flagStatusWrite 0x02) := by decide

/-- Another map moves a class to another opcode (R78: the numbers are the map's). -/
theorem test_decode_under_another_map :
    decode [(0x55, .program), (0x02, .identify)] 3 [0x55, 0x00, 0x00, 0x10, 0xAB]
      = .instr (.pp [0x00, 0x00, 0x10] [0xAB]) [] := by decide

theorem test_table_word :
    decodeTableWord 8 0x9F = some (.rdid []) ∧ decodeTableWord 8 0xFF = none := by decide

/-! ## Single instructions -/

/-- V8. -/
theorem test_rdid_answers_the_table :
    next State.responses (exec (.rdid [0, 0, 0, 0]) p0) = some [0x00, 0x20, 0xBB, 0x14, 0x10] := by
  decide

/-- V9: `EV11` at indices 20 and 21. -/
theorem test_rdid_past_the_table :
    next State.log (exec (.rdid (List.replicate 22 0)) p0) = some [.idOverrun 20, .idOverrun 21] := by
  decide

/-- V10. -/
theorem test_rdid2_answers_the_table :
    next State.responses (exec (.rdid2 [0]) p0) = some [0x00, 0x20] := by decide

/-- V10. -/
theorem test_miordid_answers_the_table :
    next State.responses (exec (.miordid [0, 0]) p0) = some [0x00, 0x20, 0xBB] := by decide

/-- V12: the capacity code of a 16 MiB block. -/
theorem test_rdid_capacity_code :
    next State.responses (exec (.rdid [0, 0, 0]) (powerOn (Cfg.ofCapacity 0x1000000)))
      = some [0x00, 0x20, 0xBB, 0x18] := by decide

/-- V13. -/
theorem test_read_answers_store_bytes :
    next State.responses (exec (.read [0x00, 0x00, 0x10] [0, 0, 0]) rd)
      = some [0x00, 0x00, 0x00, 0x00, 0xAB, 0xCD, 0xFF] := by decide

/-- V15: `EV8` at addresses 0x100000 and 0x100001. -/
theorem test_read_past_the_end :
    next (fun t => (t.responses, t.log)) (exec (.read [0x0F, 0xFF, 0xFE] [0, 0, 0, 0]) rd)
      = some ([0x00, 0x00, 0x00, 0x00, 0xFF, 0xFF, 0x00, 0x00],
          [.boundsRead 0x100000, .boundsRead 0x100001]) := by decide

/-- V14: no dummy byte. -/
theorem test_fastRead_has_no_dummy_byte :
    next State.responses (exec (.fastRead [0x00, 0x00, 0x10] [0]) rd)
      = some [0x00, 0x00, 0x00, 0x00, 0xAB] := by decide

/-- V19 with another opcode: a 4-byte address. -/
theorem test_dofr_takes_a_wide_address :
    next State.responses (exec (.dofr [0x00, 0x00, 0x00, 0x10] [0]) (wide rd))
      = some [0x00, 0x00, 0x00, 0x00, 0x00, 0xAB] := by decide

/-- R127. -/
theorem test_diofr_answers_store_bytes :
    next State.responses (exec (.diofr [0x00, 0x00, 0x10] [0]) rd)
      = some [0x00, 0x00, 0x00, 0x00, 0xAB] := by decide

/-- R128. -/
theorem test_qofr_answers_store_bytes :
    next State.responses (exec (.qofr [0x00, 0x00, 0x10] [0]) rd)
      = some [0x00, 0x00, 0x00, 0x00, 0xAB] := by decide

/-- V21: the bytes sent are ignored. -/
theorem test_qiofr_ignores_the_bytes_sent :
    next State.responses (exec (.qiofr [0x00, 0x00, 0x10] [0x55, 0x66]) rd)
      = some [0x00, 0x00, 0x00, 0x00, 0xAB, 0xCD] := by decide

/-- V27: a byte is replaced, not combined. -/
theorem test_pp_replaces :
    next State.store (exec (.pp [0x00, 0x00, 0x10] [0xF0]) (holding [(0x10, 0x0F)] p0w))
      = some [(0x10, 0xF0)] := by decide

/-- V24: `EV9` for the bytes past the end. -/
theorem test_pp_past_the_end :
    next (fun t => (t.store, t.log, t.wel)) (exec (.pp [0x0F, 0xFF, 0xFF] [1, 2, 3]) p0w)
      = some ([(0x0FFFFF, 1)], [.boundsProgram 0x100000 2, .boundsProgram 0x100001 3], true) := by
  decide

/-- R136. -/
theorem test_difp_stores :
    next State.store (exec (.difp [0x00, 0x00, 0x20] [0x11, 0x22]) p0w)
      = some [(0x20, 0x11), (0x21, 0x22)] := by decide

/-- V28 with another opcode: no page wrap. -/
theorem test_edifp_crosses_a_page :
    next State.store (exec (.edifp [0x00, 0x00, 0xFF] [0x11, 0x22]) p0w)
      = some [(0xFF, 0x11), (0x100, 0x22)] := by decide

/-- R138: the latch clear, the byte is echoed and `EV5` logged. -/
theorem test_qifp_without_latch_echoes :
    next (fun t => (t.store, t.responses, t.log)) (exec (.qifp [0x00, 0x01, 0x00] [0x5A]) p0)
      = some ([], [0x00, 0x00, 0x00, 0x00, 0x5A], [.permProgram 0x5A]) := by decide

/-- R139. -/
theorem test_eqifp_past_the_end :
    next (fun t => (t.store, t.log)) (exec (.eqifp [0x0F, 0xFF, 0xFF] [0x01, 0x02]) p0w)
      = some ([(0x0FFFFF, 0x01)], [.boundsProgram 0x100000 0x02]) := by decide

/-- V32: the whole sector of an unaligned address, and no neighbour. -/
theorem test_se_fills_its_sector :
    next State.store (exec (.se [0x02, 0xAB, 0xCD]) er)
      = some [(0x01FFFF, 0x11), (0x030000, 0x44)] := by decide

/-- V37: `EV10`, the store unchanged. -/
theorem test_se_out_of_range :
    next (fun t => (t.store, t.log)) (exec (.se [0x10, 0x00, 0x00]) er)
      = some (er.store, [.boundsErase 0x100000]) := by decide

/-- V42: the address is ignored, even out of range. -/
theorem test_de_ignores_its_address :
    next (fun t => (t.store, t.log)) (exec (.de [0xFF, 0xFF, 0xFF]) er) = some ([], []) := by decide

/-- V43: `EV6`. -/
theorem test_de_without_latch :
    next (fun t => (t.store, t.log)) (exec (.de [0x00, 0x00, 0x00]) { er with wel := false })
      = some (er.store, [.permErase .die 0]) := by decide

/-- V1. -/
theorem test_wren_sets_the_latch :
    next (fun t => (t.wel, t.fsm)) (exec .wren p0) = some (true, .idle) := by decide

/-- V2. -/
theorem test_wrdi_clears_the_latch :
    next (fun t => (t.wel, t.fsm)) (exec .wrdi p0w) = some (false, .idle) := by decide

/-- V47. -/
theorem test_rdsr_shows_the_latch :
    next State.responses (exec (.rdsr [0, 0, 0]) p0w) = some [0x00, 0x02, 0x02, 0x02] := by decide

/-- V49. -/
theorem test_rfsr_shows_wide_addresses :
    next State.responses (exec (.rfsr [0, 0]) (wide p0)) = some [0x00, 0x01, 0x01] := by decide

/-- V50. -/
theorem test_rdvcr_repeats :
    next State.responses (exec (.rdvcr [0, 0]) p0) = some [0x00, 0xFB, 0xFB] := by decide

/-- S5. -/
theorem test_rdnvcr_low_then_high :
    next State.responses (exec (.rdnvcr [0, 0, 0, 0]) { p0 with nvcr := 0x12FE })
      = some [0x00, 0xFE, 0x12, 0x00, 0x00] := by decide

/-- V53. -/
theorem test_rdvecr_repeats :
    next State.responses (exec (.rdvecr [0, 0]) p0) = some [0x00, 0xFF, 0xFF] := by decide

/-- V66: `EV12`, the latch stays. -/
theorem test_wrsr_is_rejected :
    next (fun t => (t.wel, t.log)) (exec (.wrsr [0xFF]) p0w)
      = some (true, [.regNotWritable .status 0xFF]) := by decide

/-- V56: the second byte does not overwrite the first. -/
theorem test_wrvcr_takes_one_byte :
    next (fun t => (t.vcr, t.log)) (exec (.wrvcr [0xAB, 0xCD]) p0w)
      = some (0xAB, [.regByteCount .volatileConfig 1]) := by decide

/-- V55: `EV7`. -/
theorem test_wrvcr_needs_the_latch :
    next (fun t => (t.vcr, t.log)) (exec (.wrvcr [0xAB]) p0)
      = some (0xFB, [.permRegWrite .volatileConfig 0xAB]) := by decide

/-- V59. -/
theorem test_wrnvcr_low_then_high :
    next (fun t => (t.nvcr, t.log)) (exec (.wrnvcr [0x34, 0x12, 0x77]) p0w)
      = some (0x1234, [.regByteCount .nonVolatileConfig 2]) := by decide

/-- V60: the low byte alone. -/
theorem test_wrnvcr_low_byte_alone :
    next State.nvcr (exec (.wrnvcr [0xFE]) p0w) = some 0xFFFE := by decide

/-- V65: no latch needed, one byte taken. -/
theorem test_wrvecr_takes_one_byte :
    next (fun t => (t.evcr, t.log)) (exec (.wrvecr [0x7F, 0x3F]) p0)
      = some (0x7F, [.regByteCount .enhancedVolatileConfig 1]) := by decide

/-! ## Single steps -/

/-- R91, example: the opcode byte of a Program. -/
theorem test_step_opcode_byte :
    next (fun t => (t.fsm, t.op.kind, t.op.addressLength, t.responses, t.link))
        (step (receiving [.byte 0x02, .byte 0x00] p0))
      = some (.accAddrData, .program, 3, [0x00], [.byte 0x00]) := by decide

/-- R92, example: `00 00 10` gives 0x000010 and opens the data phase. -/
theorem test_step_last_address_byte :
    next (fun t => (t.fsm, t.op.accumulatedAddress)) (step (receiving [.byte 0x10] midProgram))
      = some (.inDataPhase, 0x10) := by decide

/-- R94, example: a byte after an erase. -/
theorem test_step_byte_after_erase :
    next (fun t => (t.fsm, t.store, t.log)) (step (receiving [.byte 0x55] erased))
      = some (.noDataReady, [], []) := by decide

/-- V69. -/
theorem test_step_unrecognized :
    next (fun t => (t.fsm, t.log)) (step (receiving [.byte 0xFF] p0))
      = some (.idle, [.decodeFail 0xFF]) := by decide

/-- V26: `EV2` at `END`, the latch cleared all the same. -/
theorem test_step_end_mid_address :
    next (fun t => (t.fsm, t.wel, t.log)) (step (receiving [.endTransaction] midProgram))
      = some (.idle, false, [.endMidAddress .program 2 3]) := by decide

/-- V57: `EV4` at `END`. -/
theorem test_step_end_register_write_without_data :
    next (fun t => (t.wel, t.log)) (step (receiving [.endTransaction] (writing .volatileConfig 0)))
      = some (false, [.regByteCount .volatileConfig 0]) := by decide

/-- V58: a write of the non-volatile register does not clear the latch. -/
theorem test_step_end_keeps_the_latch :
    next (fun t => (t.wel, t.log)) (step (receiving [.endTransaction] (writing .nonVolatileConfig 2)))
      = some (true, []) := by decide

/-- V68: `EV3`. -/
theorem test_step_end_without_opcode :
    next State.log (step (receiving [.endTransaction] p0)) = some [.endNoOpcode] := by decide

/-- V73. -/
theorem test_step_reset :
    (next (fun t => (t.vcr, t.nvcr, t.evcr, t.wel))
        (step (receiving [.reset] { p0w with vcr := 0x12, nvcr := 0x1234, evcr := 0x56 }))
      = some (0xFB, 0xFFFF, 0xFF, false)) ∧
    next State.store (step (receiving [.reset] (holding [(0, 0x00)] p0w))) = some [(0, 0x00)] := by
  decide

/-- Writing the byte an unlisted address reads as removes the cell (the canonical form). -/
theorem test_write_of_erased_byte_removes_the_cell :
    Memory.write 0xFF [(1, 0x00), (2, 0x01)] 1 0xFF = [(2, 0x01)] := by decide

/-- The image is cut to `CAPACITY` bytes (R203). -/
theorem test_power_on_image :
    (powerOn { Cfg.default with initStore := [(5, 0xFF), (1, 0xAA), (0x100000, 0x01)] }).store
      = [(1, 0xAA)] := by decide

/-- What the image holds (R61, R203): the later cell, the erased byte where there is none, the tail cut. -/
theorem test_image_bytes :
    [1, 2, 0xFFFFF, 0x100000].map (Cfg.imageByte { Cfg.default with
      initStore := [(1, 0x55), (0xFFFFF, 0x22), (1, 0xAA), (0x100000, 0x01)] })
      = [0xAA, 0xFF, 0x22, 0xFF] := by decide

/-! ## Witnesses: the hypotheses of the obligations can be met -/

/-- Every instruction answers a next state. -/
theorem test_exec_total (i : Instr) (s : State) : ∃ t, exec i s = .next t := by
  cases i <;> exact ⟨_, rfl⟩

theorem test_step_total_byte (b : Byte) (rest : List Event) (s : State) (h : s.link = .byte b :: rest) :
    ∃ t, step s = .next t :=
  ⟨_, (step_of_link_cons h).trans (linkByte_eq b _)⟩

theorem test_seqInv_p0 (wel : Bool) (events : List Event) :
    SequencerInv { p0 with wel := wel, link := events } := by
  constructor <;> simp [p0, powerOn, deviceReset, DecodedOperation.empty]

theorem test_seqInv_midProgram (events : List Event) : SequencerInv (receiving events midProgram) := by
  constructor <;> simp [receiving, midProgram, operationAt, addressValue, appendAddressByte]

theorem test_seqInv_midErase (events : List Event) : SequencerInv (receiving events midErase) := by
  constructor <;> simp [receiving, midErase, operationAt]
  decide

theorem test_seqInv_writing (r : RegisterId) (n : Nat) (events : List Event) :
    SequencerInv (receiving events (writing r n)) := by
  constructor <;> simp [receiving, writing, operationWithData, DecodedOperation.empty]

theorem test_storeInv : StoreInv p0w ∧ StoreInv rd ∧ StoreInv er := by
  unfold StoreInv
  decide

theorem test_witness_DecodeOfEncodeIsIdentity :
    (Instr.pp [0x00, 0x00, 0x10] [0xAB]).wf 3 = true ∧
    (Instr.pp [0x00, 0x00, 0x10] [0xAB]).boundBy defaultOpcodeMap ∧
    (Instr.read [0x00, 0x00] []).wf 4 = true ∧
    (Instr.read [0x00, 0x00] []).boundBy defaultOpcodeMap := by
  unfold Instr.boundBy
  decide

theorem test_witness_EncodeOfDecodeGivesBytesBack :
    decode defaultOpcodeMap 3 [0xD8, 0x02, 0xAB, 0xCD, 0x55]
      = .instr (.se [0x02, 0xAB, 0xCD]) [0x55] := by decide

theorem test_witness_DefaultMapBindsTheTable : opClassOf defaultOpcodeMap 0x9F ≠ .unrecognized := by
  decide

theorem test_witness_StepRunsDecodedInstruction :
    (receiving [.byte 0x9F] p0).fsm = .idle ∧ (receiving [.byte 0x9F] p0).link = [.byte 0x9F] ∧
    decode p0.cfg.opcodeMap p0.addrLen [0x9F] = .instr (.rdid []) [] := by decide

theorem test_witness_FetchedTableWordRuns :
    p0.cfg.opcodeMap = defaultOpcodeMap ∧ decodeTableWord 8 0x02 = some (.pp [] []) ∧
    next (fun t => t.op.kind) (step (p0.withFetchWord 8 0x02)) = some .program := by decide

theorem test_witness_RunOfInstructionBytesIsExec :
    p0w.fsm = .idle ∧ (Instr.pp [0x00, 0x00, 0x10] [0xAB]).wf p0w.addrLen = true ∧
    (Instr.pp [0x00, 0x00, 0x10] [0xAB]).boundBy p0w.cfg.opcodeMap ∧
    (receiving ((encode (.pp [0x00, 0x00, 0x10] [0xAB])).map .byte ++ [.endTransaction]) p0w).link
      = (encode (.pp [0x00, 0x00, 0x10] [0xAB])).map .byte ++ [.endTransaction] := by
  unfold Instr.boundBy
  decide

/-- With a byte, with another event and with none. -/
theorem test_witness_OneResponsePerByteEvent :
    (∃ t, step (receiving [.byte 0x03] p0) = .next t) ∧
    (∃ t, step (receiving [.reset] p0) = .next t) ∧ (∃ t, step (receiving [] p0) = .next t) :=
  ⟨test_step_total_byte 0x03 [] _ rfl, ⟨_, rfl⟩, ⟨_, rfl⟩⟩

theorem test_witness_AtMostOneAnomalyPerStep :
    SequencerInv (receiving [.endTransaction] midErase) ∧
    OpcodeSeenInv (receiving [.endTransaction] midErase) ∧
    ∃ t, step (receiving [.endTransaction] midErase) = .next t :=
  ⟨test_seqInv_midErase _, fun _ => rfl, ⟨_, rfl⟩⟩

theorem test_witness_StepKeepsSequencerInvariants :
    SequencerInv (receiving [.byte 0xCD] midErase) ∧
    ∃ t, step (receiving [.byte 0xCD] midErase) = .next t :=
  ⟨test_seqInv_midErase _, test_step_total_byte 0xCD [] _ rfl⟩

theorem test_witness_StepKeepsStoreCanonical :
    StoreInv (receiving [.byte 0xAB] programming) ∧
    ∃ t, step (receiving [.byte 0xAB] programming) = .next t :=
  ⟨by unfold StoreInv; decide, test_step_total_byte 0xAB [] _ rfl⟩

theorem test_witness_StepKeepsOpcodeSeen :
    OpcodeSeenInv (receiving [.byte 0x10] midProgram) ∧
    ∃ t, step (receiving [.byte 0x10] midProgram) = .next t :=
  ⟨fun _ => rfl, test_step_total_byte 0x10 [] _ rfl⟩

theorem test_witness_CanonicalStoresAreDeterminedByReads :
    Memory.wf 0xFF 0x100000 rd.store ∧
    ∀ a, Memory.read 0xFF rd.store a = Memory.read 0xFF rd.store a :=
  ⟨by decide, fun _ => rfl⟩

/-- The last address, the first one outside, and a fill that ends at the end. -/
theorem test_witness_StorePrimitivesAreBounded :
    StoreInv p0w ∧ 0x0FFFFF < p0w.cfg.capacity ∧ p0w.cfg.capacity ≤ 0x100000 ∧
    0x0F0000 + 0x10000 ≤ p0w.cfg.capacity ∧ p0w.cfg.capacity < 0x0F0001 + 0x10000 :=
  ⟨test_storeInv.1, by decide, by decide, by decide, by decide⟩

theorem test_witness_ResetEventRestoresRegisters :
    (receiving [.reset] p0w).link = .reset :: [] := by decide

theorem test_witness_UnrecognizedOpcodeIsLogged :
    (receiving [.byte 0xFF] p0).fsm = .idle ∧ (receiving [.byte 0xFF] p0).link = [.byte 0xFF] ∧
    opClassOf p0.cfg.opcodeMap 0xFF = .unrecognized := by decide

/-- The last address byte of a Program; an earlier one of an Erase. -/
theorem test_witness_AddressByteIsAppended :
    (midProgram.fsm = .accAddrData ∧
      midProgram.op.addressBytesReceived + 1 = midProgram.op.addressLength) ∧
    ((wide midErase).fsm = .accAddrNoData ∧
      (operationAt (.erase .sector) 4 [0x02, 0xAB] 0).addressBytesReceived + 1
        ≠ (operationAt (.erase .sector) 4 [0x02, 0xAB] 0).addressLength) := by decide

theorem test_witness_EveryDataByteIsCounted :
    (programming.fsm = .inDataPhase ∧ ∃ t, step (receiving [.byte 0xAB] programming) = .next t) ∧
    (p0.fsm ≠ .inDataPhase ∧ ∃ t, step (receiving [.byte 0xAB] p0) = .next t) :=
  ⟨⟨rfl, test_step_total_byte 0xAB [] _ rfl⟩, ⟨by decide, test_step_total_byte 0xAB [] _ rfl⟩⟩

theorem test_witness_ByteAfterEraseIsIgnored :
    (receiving [.byte 0x55] erased).fsm = .noDataReady ∧
    (receiving [.byte 0x55] erased).link = [.byte 0x55] := by decide

/-- Mutating operations and one that is not. -/
theorem test_witness_EndClosesTheTransaction :
    midProgram.op.kind = .program ∧ midErase.op.kind = .erase .sector ∧
    (writing .volatileConfig 0).op.kind = .writeRegister .volatileConfig ∧
    (writing .nonVolatileConfig 0).op.kind ≠ .program ∧
    (∀ g, (writing .nonVolatileConfig 0).op.kind ≠ .erase g) ∧
    (writing .nonVolatileConfig 0).op.kind ≠ .writeRegister .volatileConfig := by
  refine ⟨by decide, by decide, by decide, by decide, fun g => ?_, by decide⟩
  cases g <;> decide

theorem test_witness_EndLogsWhatItFinds_midAddress :
    SequencerInv (receiving [.endTransaction] midProgram) ∧
    OpcodeSeenInv (receiving [.endTransaction] midProgram) ∧
    (receiving [.endTransaction] midProgram).fsm = .accAddrData :=
  ⟨test_seqInv_midProgram _, fun _ => rfl, rfl⟩

theorem test_witness_EndLogsWhatItFinds_noOpcode :
    SequencerInv (receiving [.endTransaction] p0) ∧ OpcodeSeenInv (receiving [.endTransaction] p0) ∧
    (receiving [.endTransaction] p0).opcodeSeen = false :=
  ⟨test_seqInv_p0 _ _, fun h => absurd rfl h, rfl⟩

/-- One byte of two: too few; two of two: not too few. -/
theorem test_witness_EndLogsWhatItFinds_registerWrite :
    SequencerInv (receiving [.endTransaction] (writing .nonVolatileConfig 1)) ∧
    OpcodeSeenInv (receiving [.endTransaction] (writing .nonVolatileConfig 1)) ∧
    (writing .nonVolatileConfig 1).op.bytesHandledInDataPhase < 2 ∧
    SequencerInv (receiving [.endTransaction] (writing .nonVolatileConfig 2)) ∧
    OpcodeSeenInv (receiving [.endTransaction] (writing .nonVolatileConfig 2)) ∧
    2 ≤ (writing .nonVolatileConfig 2).op.bytesHandledInDataPhase :=
  ⟨test_seqInv_writing _ _ _, fun _ => rfl, by decide, test_seqInv_writing _ _ _, fun _ => rfl,
    by decide⟩

/-- In 3-byte and in 4-byte mode, and past the capacity. -/
theorem test_witness_ReadAnswersStoreBytes :
    ([0x0F, 0xFF, 0xFF] : List Byte).length = rd.addrLen ∧
    ([0x00, 0x00, 0x00, 0x10] : List Byte).length = (wide rd).addrLen ∧
    rd.readAnswers (addressValue [0x0F, 0xFF, 0xFF]) 2 = [0xFF, 0x00] ∧
    rd.readAnomalies (addressValue [0x0F, 0xFF, 0xFF]) 2 = [.boundsRead 0x100000] := by decide

theorem test_witness_ProgramStoresItsBytes :
    StoreInv p0w ∧ ([0x0F, 0xFF, 0xFF] : List Byte).length = p0w.addrLen ∧ p0w.wel = true ∧
    p0w.programAnomalies (addressValue [0x0F, 0xFF, 0xFF]) [1, 2] = [.boundsProgram 0x100000 2] :=
  ⟨test_storeInv.1, by decide, by decide, by decide⟩

theorem test_witness_ProgramWithoutLatchEchoes :
    ([0x10, 0x00, 0x00] : List Byte).length = p0.addrLen ∧ p0.wel = false := by decide

/-- The last address inside the store. -/
theorem test_witness_SectorEraseFillsItsSector :
    er.cfg.wf = true ∧ ([0x0F, 0xFF, 0xFF] : List Byte).length = er.addrLen ∧ er.wel = true ∧
    addressValue [0x0F, 0xFF, 0xFF] < er.cfg.capacity ∧
    addressValue [0x0F, 0xFF, 0xFF] + 1 = er.cfg.capacity := by decide

theorem test_witness_DieEraseFillsTheStore :
    ([0x00, 0x00, 0x00] : List Byte).length = er.addrLen ∧ er.wel = true ∧
    0x0FFFFF < er.cfg.capacity := by decide

/-- The latch clear; the first address outside the store. -/
theorem test_witness_RejectedEraseChangesNoByte :
    er.cfg.wf = true ∧ p0.cfg.wf = true ∧ p0.wel = false ∧
    ([0x10, 0x00, 0x00] : List Byte).length = er.addrLen ∧
    ([0x10, 0x00, 0x00] : List Byte).length = p0.addrLen ∧
    addressValue [0x10, 0x00, 0x00] = er.cfg.capacity := by decide

theorem test_witness_IncompleteAddressDoesNothing :
    ([] : List Byte).length < p0.addrLen ∧ ([0x00, 0x00] : List Byte).length < p0.addrLen ∧
    ([0x00, 0x00, 0x00] : List Byte).length < (wide p0).addrLen := by decide

/-- Each of the four registers. -/
theorem test_witness_OneByteRegistersRepeat :
    p0w.statusRegister = 0x02 ∧ (wide p0).flagStatusRegister = 0x01 ∧ p0.vcr = 0xFB ∧
    p0.evcr = 0xFF := by decide

theorem test_witness_UnwritableRegisterByteIsLogged :
    ((writing .status 0).fsm = .inDataPhase ∧
      (writing .status 0).op.kind = .writeRegister .status) ∧
    ((writing .flagStatus 0).fsm = .inDataPhase ∧
      (writing .flagStatus 0).op.kind = .writeRegister .flagStatus) := by decide

theorem test_witness_ReadClassFrame : ∃ t, exec (.read [0x00, 0x00, 0x10] [0x00]) rd = .next t :=
  test_exec_total _ _

/-- The bytes stored at 0x10 and 0x11, and a byte beside them. -/
theorem test_witness_ProgramFrame :
    ([0x00, 0x00, 0x10] : List Byte).length = p0w.addrLen ∧
    ¬(addressValue [0x00, 0x00, 0x10] ≤ 0x12 ∧ 0x12 < addressValue [0x00, 0x00, 0x10] + 2) ∧
    next (fun t => t.byteAt 0x12) (exec (.pp [0x00, 0x00, 0x10] [0xAB, 0xCD]) p0w) = some 0xFF := by
  decide

/-- The last byte below the sector and the first one above it. -/
theorem test_witness_EraseFrame :
    ([0x02, 0xAB, 0xCD] : List Byte).length ≤ er.addrLen ∧
    sectorBase 0x10000 (addressValue [0x02, 0xAB, 0xCD]) = 0x020000 ∧
    next (fun t => (t.byteAt 0x01FFFF, t.byteAt 0x030000)) (exec (.se [0x02, 0xAB, 0xCD]) er)
      = some (0x11, 0x44) := by decide

theorem test_witness_RegisterWriteFrame :
    (∃ t, exec (.wrvcr [0xAB]) p0w = .next t) ∧ (∃ t, exec .wren p0 = .next t) ∧
    (∃ t, exec .wrdi p0w = .next t) :=
  ⟨test_exec_total _ _, test_exec_total _ _, test_exec_total _ _⟩

/-- The four ways. -/
theorem test_witness_OnlyFourThingsChangeTheLatch :
    next State.wel (step (receiving [.byte 0x06] p0)) = some true ∧
    next State.wel (step (receiving [.byte 0x04] p0w)) = some false ∧
    next State.wel (step (receiving [.endTransaction] midErase)) = some false ∧
    next State.wel (step (receiving [.reset] p0w)) = some false := by decide

theorem test_witness_WriteDisabledProtectsStoreAndConfig :
    p0.wel = false ∧ (∀ rest, (receiving [.byte 0x02] p0).link ≠ .reset :: rest) ∧
    ∃ t, step (receiving [.byte 0x02] p0) = .next t :=
  ⟨rfl, fun _ h => by simp [receiving] at h, test_step_total_byte 0x02 [] _ rfl⟩

/-- A byte programmed and a sector erased. -/
theorem test_witness_StoreChangesOnlyInProgramOrErase :
    next State.store (step (receiving [.byte 0xAB] programming)) = some [(0x10, 0xAB)] ∧
    next State.store (step (receiving [.byte 0xCD] (holding [(0x020000, 0x22)] midErase)))
      = some [] := by decide

theorem test_witness_OutputsInfluenceNothing :
    ∃ t, step (receiving [.byte 0x9F] p0) = .next t := test_step_total_byte 0x9F [] _ rfl

/-- A data byte of RDVCR, one of RDVECR, and the `END` of such a read. -/
theorem test_witness_CosmeticRegistersInfluenceNothing :
    (∃ t, step (receiving [.byte 0x00] (reading .volatileConfig 0)) = .next t) ∧
    (∃ t, step (receiving [.byte 0x00] (reading .enhancedVolatileConfig 1)) = .next t) ∧
    (∃ t, step (receiving [.endTransaction] (reading .volatileConfig 1)) = .next t) ∧
    (reading .volatileConfig 0).fsm = .inDataPhase ∧
    (reading .volatileConfig 0).op.kind = .readRegister .volatileConfig ∧
    (reading .enhancedVolatileConfig 1).op.kind = .readRegister .enhancedVolatileConfig :=
  ⟨test_step_total_byte 0x00 [] _ rfl, test_step_total_byte 0x00 [] _ rfl, ⟨_, rfl⟩, rfl, rfl, rfl⟩

/-- `END` with the ghost bit clear, and a byte, which is no `END`. -/
theorem test_witness_OpcodeSeenInfluencesOnlyTheLog :
    (∃ t, step (receiving [.endTransaction] p0) = .next t) ∧ p0.opcodeSeen = false ∧
    (∃ t, step (receiving [.byte 0x06] p0) = .next t) ∧
    (∀ rest, (receiving [.byte 0x06] p0).link ≠ .endTransaction :: rest) :=
  ⟨⟨_, rfl⟩, rfl, test_step_total_byte 0x06 [] _ rfl, by simp [receiving]⟩

theorem test_witness_ReadAfterProgramAnswersTheData :
    StoreInv p0w ∧ p0w.fsm = .idle ∧ p0w.wel = true ∧ p0w.cfg.opcodeMap = defaultOpcodeMap ∧
    ([0x0F, 0xFF, 0xFE] : List Byte).length = p0w.addrLen ∧
    addressValue [0x0F, 0xFF, 0xFE] + ([0xAB, 0xCD] : List Byte).length ≤ p0w.cfg.capacity :=
  ⟨test_storeInv.1, by decide, by decide, by decide, by decide, by decide⟩

/-- An opcode byte, the last address byte, a data byte, a byte after an erase. -/
theorem test_witness_NoDataByteBeforeTheAddressIsComplete :
    (∃ t, step (receiving [.byte 0x02] p0w) = .next t) ∧ p0w.fsm = .idle ∧
    (∃ t, step (receiving [.byte 0x10] midProgram) = .next t) ∧ midProgram.fsm = .accAddrData ∧
    midProgram.op.addressBytesReceived + 1 = midProgram.op.addressLength ∧
    (∃ t, step (receiving [.byte 0xAB] programming) = .next t) ∧ programming.fsm = .inDataPhase ∧
    (∃ t, step (receiving [.byte 0xAB] erased) = .next t) ∧ erased.fsm = .noDataReady :=
  ⟨test_step_total_byte 0x02 [] _ rfl, rfl, test_step_total_byte 0x10 [] _ rfl, rfl, rfl,
    test_step_total_byte 0xAB [] _ rfl, rfl, test_step_total_byte 0xAB [] _ rfl, rfl⟩

end Sys2Proof.Tests
end

/-! # The state of the block (spec/10_state.md): the store, the latch, the ghost bit, the address

What one step leaves canonical, what it can change, and what it does not read. -/

namespace Sys2Proof.Machine

/-! ## The step, by the event at the head of the link -/

section StepEquations

variable {s : State} {rest : List Event}

theorem step_of_link_nil (h : s.link = []) : step s = .next s := by
  simp [step, h]

theorem step_of_link_byte {b : Byte} (h : s.link = .byte b :: rest) :
    step s = .next (byteEffect b { s with link := rest }) := by
  rw [step_of_link_cons h, linkEvent, linkByte_eq]

theorem step_of_link_end (h : s.link = .endTransaction :: rest) :
    step s = .next (endTransaction { s with link := rest }) :=
  step_of_link_cons h

theorem step_of_link_reset (h : s.link = .reset :: rest) :
    step s = .next (deviceReset { s with link := rest }) :=
  step_of_link_cons h

end StepEquations

/-! ## The canonical store -/

theorem powerOn_storeInv (c : Cfg) : StoreInv (powerOn c) :=
  Cfg.initialStore_wf c

/-- Only a byte can touch the store, and a byte keeps the canonical form. -/
theorem step_preserves_storeInv {s t : State} (hs : StoreInv s) (h : step s = .next t) :
    StoreInv t := by
  obtain ⟨-, rfl⟩ | ⟨b, rest, -, rfl⟩ | ⟨rest, -, rfl⟩ | ⟨rest, -, rfl⟩ := step_cases h
  · exact hs
  · exact (byteEffect_frame b _).storeWf hs
  · exact hs
  · exact hs

/-- Settles O13: the image is written cell by cell from the empty store, and a step touches the store
by writes and fills below the capacity alone. -/
theorem stepKeepsStoreCanonical : Obligations.StepKeepsStoreCanonical :=
  ⟨powerOn_storeInv, fun _ _ => step_preserves_storeInv⟩

/-! ## The image -/

/-- One more image cell is one more write, unless it lies beyond the store. -/
theorem Cfg.initialStore_concat (c : Cfg) (cells : List Host.Cell) (a : Nat) (v : Byte) :
    Cfg.initialStore { c with initStore := cells ++ [(a, v)] } =
      if a < c.capacity
      then Memory.write c.erased (Cfg.initialStore { c with initStore := cells }) a v
      else Cfg.initialStore { c with initStore := cells } := by
  simp [Cfg.initialStore, List.foldl_append]

/-- The last image cell decides its own address, if the store has it, and no other. -/
theorem Cfg.imageByte_concat (c : Cfg) (cells : List Host.Cell) (a x : Nat) (v : Byte) :
    Cfg.imageByte { c with initStore := cells ++ [(a, v)] } x =
      if x = a ∧ a < c.capacity then v
      else Cfg.imageByte { c with initStore := cells } x := by
  by_cases hx : x = a
  · subst x
    by_cases ha : a < c.capacity <;> simp [Cfg.imageByte, ha]
  · have hbeq : (x == a) = false := by simpa using hx
    simp [Cfg.imageByte, List.lookup_cons, hbeq, hx]

/-- The store of a new block reads the image, by induction on the image from its last cell. -/
theorem Cfg.read_initialStore (c : Cfg) (x : Nat) :
    Memory.read c.erased (Cfg.initialStore c) x = Cfg.imageByte c x := by
  suffices h : ∀ cells : List Host.Cell,
      Memory.read c.erased (Cfg.initialStore { c with initStore := cells }) x
        = Cfg.imageByte { c with initStore := cells } x from h c.initStore
  intro cells
  induction cells using List.reverseRecOn with
  | nil => simp [Cfg.initialStore, Cfg.imageByte, Memory.read]
  | append_singleton cells cell ih =>
    obtain ⟨a, v⟩ := cell
    have hwf : Memory.wf c.erased c.capacity (Cfg.initialStore { c with initStore := cells }) :=
      Cfg.initialStore_wf { c with initStore := cells }
    rw [Cfg.initialStore_concat, Cfg.imageByte_concat, ← ih]
    by_cases ha : a < c.capacity
    · by_cases hx : x = a
      · subst x
        simp [ha, Memory.read_write_same hwf]
      · simp [ha, hx, Memory.read_write_other hx]
    · simp [ha]

theorem powerOn_byteAt (c : Cfg) (a : Nat) : (powerOn c).byteAt a = Cfg.imageByte c a :=
  Cfg.read_initialStore c a

/-- Settles O18: the fields are read off the two definitions; what the power-on store reads is
`powerOn_byteAt`. -/
theorem resetStateValues : Obligations.ResetStateValues :=
  ⟨⟨rfl, rfl, rfl, rfl, rfl, rfl, rfl, rfl, rfl, rfl, fun _ => rfl, rfl⟩,
    fun c => ⟨rfl, powerOn_byteAt c⟩⟩

/-! ## What changes the latch and the store -/

/-- The operations after which `END` clears the latch, one by one (R95). -/
theorem OpKind.mutating_iff (k : OpKind) :
    k.mutating = true ↔
      k = .program ∨ (∃ g, k = .erase g) ∨ k = .writeRegister .volatileConfig := by
  cases k <;> simp [OpKind.mutating]

/-- Settles O48: a byte by its frame, `END` by the kinds that clear the latch. -/
theorem onlyFourThingsChangeTheLatch : Obligations.OnlyFourThingsChangeTheLatch := by
  intro s t h hne
  obtain ⟨-, rfl⟩ | ⟨b, rest, hl, rfl⟩ | ⟨rest, hl, rfl⟩ | ⟨rest, hl, -⟩ := step_cases h
  · exact absurd rfl hne
  · obtain ⟨hidle, hclass⟩ := (byteEffect_frame b { s with link := rest }).latched hne
    exact .inl ⟨b, rest, hidle, hl, hclass⟩
  · have hmut : s.op.kind.mutating = true := by
      by_contra hmut
      exact hne (by simp [hmut])
    exact .inr (.inl ⟨rest, hl, by simp [hmut], (OpKind.mutating_iff _).1 hmut⟩)
  · exact .inr (.inr ⟨rest, hl⟩)

/-- Settles O50: `END` and `RESET` leave the store alone, and for a byte its frame says when the store
can change. -/
theorem storeChangesOnlyInProgramOrErase : Obligations.StoreChangesOnlyInProgramOrErase := by
  intro s t h hne
  obtain ⟨-, rfl⟩ | ⟨b, rest, hl, rfl⟩ | ⟨rest, -, rfl⟩ | ⟨rest, -, rfl⟩ := step_cases h
  · exact absurd rfl hne
  · obtain ⟨hwel, hwhere⟩ := (byteEffect_frame b { s with link := rest }).stored hne
    exact ⟨hwel, b, rest, hl, hwhere⟩
  · exact absurd rfl hne
  · exact absurd rfl hne

/-! ## The ghost bit -/

/-- With another ghost bit a byte does the same; the bit comes out set in `Idle` and is carried along
elsewhere. -/
theorem byteEffect_opcodeSeen (b : Byte) (s : State) (seen : Bool) :
    byteEffect b { s with opcodeSeen := seen } = { byteEffect b s with
      opcodeSeen := if s.fsm = .idle then (byteEffect b s).opcodeSeen else seen } := by
  have frame := byteEffect_frame b s
  obtain ⟨v, hv⟩ := frame.answered
  obtain ⟨l, hl, -⟩ := frame.logged
  have hresponses : s.responses ++ (byteEffect b s).responses.drop s.responses.length
      = (byteEffect b s).responses := by rw [hv, List.drop_left]
  have hlog : s.log ++ (byteEffect b s).log.drop s.log.length = (byteEffect b s).log := by
    rw [hl, List.drop_left]
  refine (byteEffect_unread s.link seen s.responses s.log b s).trans ?_
  rw [State.unreadAfter, hresponses, hlog, ← frame.link]

/-- The ghost bit decides one entry of what `END` logs, at a place that does not depend on it (R96). -/
theorem endTransaction_log_opcodeSeen (s : State) : ∃ before after : List Anomaly, ∀ seen : Bool,
    (endTransaction { s with opcodeSeen := seen }).log
      = s.log ++ before ++ (if seen then [] else [.endNoOpcode]) ++ after :=
  ⟨_, _, fun seen => by simp only [endTransaction_log, State.endAnomalies, ← List.append_assoc]; rfl⟩

/-- Settles O53: a byte carries the bit along, `END` reads it for `EV3` alone, `RESET` overwrites it. -/
theorem opcodeSeenInfluencesOnlyTheLog : Obligations.OpcodeSeenInfluencesOnlyTheLog := by
  intro s t seen h
  obtain ⟨hl, rfl⟩ | ⟨b, rest, hl, rfl⟩ | ⟨rest, hl, rfl⟩ | ⟨rest, hl, rfl⟩ := step_cases h
  · exact ⟨_, step_of_link_nil hl, rfl, fun _ => rfl, by simp [hl]⟩
  · refine ⟨_, step_of_link_byte hl, ?_⟩
    rw [byteEffect_opcodeSeen b { s with link := rest } seen]
    exact ⟨rfl, fun _ => rfl, by simp [hl]⟩
  · obtain ⟨before, after, hlog⟩ := endTransaction_log_opcodeSeen { s with link := rest }
    exact ⟨_, step_of_link_end hl, rfl, fun hne => absurd hl (hne rest),
      fun _ _ => ⟨before, after, hlog s.opcodeSeen, hlog seen⟩⟩
  · exact ⟨_, step_of_link_reset hl, rfl, fun _ => rfl, by simp [hl]⟩

/-! ## The address before the data -/

/-- No opcode byte leads to the state after an erase (R76). -/
theorem OpKind.firstFsm_ne_noDataReady (k : OpKind) : k.firstFsm ≠ .noDataReady := by
  cases k <;> simp [OpKind.firstFsm]

/-- The operations whose opcode byte opens the data phase have no address phase (R76). -/
theorem OpKind.hasAddress_of_firstFsm_inDataPhase {k : OpKind} (h : k.firstFsm = .inDataPhase) :
    k.hasAddress = false := by
  cases k <;> simp_all [OpKind.firstFsm, OpKind.hasAddress]

/-- The kinds without an address phase are no Read, Program or Erase (R76). -/
theorem OpKind.ne_addressed_of_hasAddress {k : OpKind} (h : k.hasAddress = false) :
    k ≠ .read ∧ k ≠ .program ∧ ∀ g, k ≠ .erase g := by
  cases k <;> simp_all [OpKind.hasAddress]

/-- An opcode byte opens no data phase of an operation with an address (R25). -/
theorem byteEffect_opens_no_addressed_data (b : Byte) {s : State} (hf : s.fsm = .idle) :
    (byteEffect b s).fsm ≠ .noDataReady ∧
      ((byteEffect b s).fsm = .inDataPhase → (byteEffect b s).op.kind.hasAddress = false) := by
  obtain ⟨fsm, op, wel, logged, he, -, -, ⟨rfl, rfl⟩ | ⟨k, -, rfl, rfl⟩⟩ := opcodeEffect_frame b s
  · rw [byteEffect_of_idle b hf, he]
    simp [hf]
  · rw [byteEffect_of_idle b hf, he]
    exact ⟨k.firstFsm_ne_noDataReady, OpKind.hasAddress_of_firstFsm_inDataPhase⟩

/-- An address byte is no data byte, and it leaves the address phase exactly when it completes the
address (R25, R92). -/
theorem byteEffect_leaves_address_phase_iff (b : Byte) {s : State}
    (hf : s.fsm = .accAddrData ∨ s.fsm = .accAddrNoData) :
    (byteEffect b s).op.bytesHandledInDataPhase = s.op.bytesHandledInDataPhase ∧
      ((byteEffect b s).fsm = .inDataPhase ∨ (byteEffect b s).fsm = .noDataReady ↔
        (byteEffect b s).op.addressBytesReceived = (byteEffect b s).op.addressLength) := by
  obtain ⟨fsm, store, logged, he, -, -, -, -, hshort, hlast⟩ := addressByte_frame s b
  rw [byteEffect_of_address b hf, he]
  refine ⟨rfl, ?_⟩
  by_cases hc : s.op.addressBytesReceived + 1 = s.op.addressLength
  · obtain ⟨hdata, hready⟩ := hlast hc
    refine iff_of_true ?_ hc
    by_cases h : s.fsm = .accAddrData
    · exact .inl (hdata h).1
    · exact .inr (hready h)
  · refine iff_of_false ?_ hc
    obtain ⟨hfsm, -⟩ := hshort hc
    rcases hf with h | h <;> simp [hfsm, h]

/-- Once the address is complete a byte changes neither it nor the state of the machine (R25). -/
theorem byteEffect_keeps_address (b : Byte) {s : State}
    (hf : s.fsm = .inDataPhase ∨ s.fsm = .noDataReady) :
    (byteEffect b s).fsm = s.fsm ∧
      (byteEffect b s).op.accumulatedAddress = s.op.accumulatedAddress ∧
      (byteEffect b s).op.addressBytesReceived = s.op.addressBytesReceived ∧
      (byteEffect b s).op.addressLength = s.op.addressLength := by
  rcases hf with hf | hf
  · obtain ⟨store, vcr, nvcr, evcr, answer, logged, freeIndex, he, -⟩ := dataByte_frame s b
    rw [byteEffect_of_data b hf, he]
    exact ⟨rfl, rfl, rfl, rfl⟩
  · rw [byteEffect_of_ready b hf]
    exact ⟨rfl, rfl, rfl, rfl⟩

/-- Settles O55: by the state in which the byte is taken. -/
theorem noDataByteBeforeTheAddressIsComplete :
    Obligations.NoDataByteBeforeTheAddressIsComplete := by
  intro s t b rest hl h
  obtain rfl : byteEffect b { s with link := rest } = t := by
    rwa [step_of_link_byte hl, Host.Outcome.next.injEq] at h
  refine ⟨fun hf => ?_, byteEffect_leaves_address_phase_iff b (s := { s with link := rest }),
    byteEffect_keeps_address b (s := { s with link := rest })⟩
  obtain ⟨hready, hdata⟩ := byteEffect_opens_no_addressed_data b (s := { s with link := rest }) hf
  exact ⟨hready, fun hfsm => OpKind.ne_addressed_of_hasAddress (hdata hfsm)⟩

end Sys2Proof.Machine

/-! # The store primitives and a program read back (spec/20_memory.md)

What a write and a fill leave in the store, and two whole transactions as runs over the link. -/

namespace Sys2Proof.Machine

/-! ## The store primitives in range -/

section StorePrimitives

variable {s : State} {a n : Nat} {v : Byte}

theorem storeWrite_of_lt (h : a < s.cfg.capacity) :
    s.storeWrite a v = some { s with store := Memory.write s.cfg.erased s.store a v } := if_pos h

theorem storeFill_of_le (h : a + n ≤ s.cfg.capacity) :
    s.storeFill a n v = some { s with store := Memory.fill s.cfg.erased s.store a n v } := if_pos h

/-- A write to a canonical store: the byte written at its address, the old byte elsewhere (R53). -/
theorem Memory.read_write {blank : Byte} {capacity : Nat} {m : Memory}
    (hm : Memory.wf blank capacity m) (x : Nat) :
    Memory.read blank (Memory.write blank m a v) x = if x = a then v else Memory.read blank m x := by
  split
  case isTrue hx => rw [hx, Memory.read_write_same hm]
  case isFalse hx => exact Memory.read_write_other hx

end StorePrimitives

/-- Settles O16: the bounds are those of the primitives' own tests; what is read after a write or a fill
is `Memory.read_write` and `Memory.read_fill`. -/
theorem storePrimitivesAreBounded : Obligations.StorePrimitivesAreBounded := by
  intro s a n v hs
  refine ⟨rfl, storeWrite_eq_none_iff.2, fun ha => ?_, storeFill_eq_none_iff.2, fun hn => ?_⟩
  · exact ⟨_, storeWrite_of_lt ha, Memory.wf_write hs ha, rfl, Memory.read_write hs⟩
  · exact ⟨_, storeFill_of_le hn, Memory.wf_fill hs hn, rfl, fun _ => Memory.read_fill hs hn⟩

/-! ## Runs, piece by piece -/

section Runs

variable {s t : State}

theorem step_total (s : State) : ∃ u, step s = .next u := by
  cases hl : s.link with
  | nil => exact ⟨_, step_of_link_nil hl⟩
  | cons e rest =>
    cases e with
    | byte b => exact ⟨_, step_of_link_byte hl⟩
    | endTransaction => exact ⟨_, step_of_link_end hl⟩
    | reset => exact ⟨_, step_of_link_reset hl⟩

/-- A run goes on from where its first part ends. -/
theorem run_add {m : Nat} (h : Host.Core.run core m s = .next t) (n : Nat) :
    Host.Core.run core (m + n) s = Host.Core.run core n t := by
  induction m generalizing s with
  | zero =>
    obtain rfl : s = t := Host.Outcome.next.inj h
    rw [Nat.zero_add]
  | succ m ih =>
    obtain ⟨u, hu⟩ := step_total s
    rw [run_succ hu] at h
    rw [Nat.succ_add, run_succ hu, ih h]

theorem runBytes_cons (b : Byte) (bytes : List Byte) (s : State) :
    runBytes (b :: bytes) s = runBytes bytes (byteEffect b s) := rfl

theorem runBytes_append (bytes bytes' : List Byte) (s : State) :
    runBytes (bytes ++ bytes') s = runBytes bytes' (runBytes bytes s) :=
  List.foldl_append

/-- In the address phase every byte up to the last one of the address is an address byte (R92). -/
theorem runBytes_address (bytes : List Byte) (hf : s.fsm = .accAddrData ∨ s.fsm = .accAddrNoData)
    (hl : s.op.addressBytesReceived + bytes.length ≤ s.op.addressLength) :
    runBytes bytes s = bytes.foldl addressByte s := by
  induction bytes generalizing s with
  | nil => rfl
  | cons b bytes ih =>
    rw [runBytes_cons, byteEffect_of_address b hf, List.foldl_cons]
    cases bytes with
    | nil => rfl
    | cons c bytes =>
      rw [List.length_cons, List.length_cons] at hl
      rw [addressByte_of_incomplete b (by omega)]
      exact ih hf (by simp; omega)

/-- In the data phase every byte goes to the handler of the operation's kind (R93). -/
theorem runBytes_data {k : OpKind} {handler : State → Byte → State}
    (hh : ∀ (u : State) (b : Byte), u.op.kind = k → dataByte u b = handler u b)
    (bytes : List Byte) (hf : s.fsm = .inDataPhase) (hk : s.op.kind = k) :
    runBytes bytes s = bytes.foldl handler s := by
  induction bytes generalizing s with
  | nil => rfl
  | cons b bytes ih =>
    obtain ⟨store, vcr, nvcr, evcr, answer, logged, freeIndex, he, -⟩ := dataByte_frame s b
    rw [runBytes_cons, byteEffect_of_data b hf, List.foldl_cons, ← hh s b hk]
    exact ih (by rw [he]; exact hf) (by rw [he]; exact hk)

/-- A transaction with an address and data, in `Idle`: the opcode byte begins the operation, then come
the address phase and the data phase (R91 to R93). -/
theorem runBytes_transaction {k : OpKind} {handler : State → Byte → State}
    (hh : ∀ (u : State) (b : Byte), u.op.kind = k → dataByte u b = handler u b)
    (hk : k.firstFsm = .accAddrData) (ha : k.hasAddress = true) {opcode : Byte}
    {address : List Byte} (data : List Byte) (hf : s.fsm = .idle)
    (ho : opcodeEffect opcode s = s.beginOperation k) (hl : address.length = s.addrLen) :
    runBytes (opcode :: (address ++ data)) s
      = data.foldl handler (address.foldl addressByte (s.beginOperation k)) := by
  have haddress : runBytes address (s.beginOperation k)
      = address.foldl addressByte (s.beginOperation k) :=
    runBytes_address address (.inl hk) (by simp [ha, hl, DecodedOperation.empty])
  rw [runBytes_cons, byteEffect_of_idle opcode hf, ho, runBytes_append, haddress]
  exact runBytes_data hh data (by rw [beginOperation_address_data hk ha hl])
    (by rw [beginOperation_address_data hk ha hl]; rfl)

theorem opcodeEffect_of_program {b : Byte} (h : opClassOf s.cfg.opcodeMap b = .program) :
    opcodeEffect b s = s.beginOperation .program := by
  rw [opcodeEffect, h]

theorem opcodeEffect_of_read {b : Byte} (h : opClassOf s.cfg.opcodeMap b = .read) :
    opcodeEffect b s = s.beginOperation .read := by
  rw [opcodeEffect, h]

/-- A program transaction off the link is `runProgram` (R91 to R93). -/
theorem run_pp {address data : List Byte} {rest : List Event} (hf : s.fsm = .idle)
    (hb : (Instr.pp address data).boundBy s.cfg.opcodeMap) (hl : address.length = s.addrLen)
    (hlink : s.link = (encode (.pp address data)).map Event.byte ++ rest) :
    Host.Core.run core (encode (.pp address data)).length s
      = .next (runProgram address data { s with link := rest }) :=
  (run_bytes _ s rest hlink).trans <| congrArg _ <|
    runBytes_transaction (fun u b hk => by rw [dataByte, hk]) rfl rfl data hf
      (opcodeEffect_of_program hb) hl

/-- A read transaction off the link is `runRead` (R91 to R93). -/
theorem run_read {address sent : List Byte} {rest : List Event} (hf : s.fsm = .idle)
    (hb : (Instr.read address sent).boundBy s.cfg.opcodeMap) (hl : address.length = s.addrLen)
    (hlink : s.link = (encode (.read address sent)).map Event.byte ++ rest) :
    Host.Core.run core (encode (.read address sent)).length s
      = .next (runRead address sent { s with link := rest }) :=
  (run_bytes _ s rest hlink).trans <| congrArg _ <|
    runBytes_transaction (fun u b hk => by rw [dataByte, hk]) rfl rfl sent hf
      (opcodeEffect_of_read hb) hl

/-- `END` on the link closes the transaction. -/
theorem run_endTransaction {rest : List Event} (hlink : s.link = .endTransaction :: rest) :
    Host.Core.run core 1 s = .next (endTransaction { s with link := rest }) :=
  run_succ (step_of_link_end hlink) 0

end Runs

/-! ## A program transaction and a read transaction as a whole -/

section Transactions

variable {s : State} {address : List Byte}

/-- What a program transaction with the latch set does, in a canonical store (R130 to R135). -/
theorem runProgram_enabled (data : List Byte) (hm : StoreInv s) (hl : address.length = s.addrLen)
    (hw : s.wel = true) :
    ∃ store, runProgram address data s = { s with
        fsm := .inDataPhase, opcodeSeen := true
        op := operationAt .program s.addrLen address data.length, store := store
        responses := s.responses ++ s.unspecifiedRun (1 + s.addrLen + data.length)
        log := s.log ++ s.programAnomalies (addressValue address) data
        freeIndex := s.freeIndex + (1 + s.addrLen + data.length) } ∧
      ∀ a, Memory.read s.cfg.erased store a =
        if addressValue address ≤ a ∧ a < addressValue address + data.length ∧ a < s.cfg.capacity
        then data.getD (a - addressValue address) 0 else s.byteAt a := by
  have hopen := beginOperation_address_data (s := s) (k := .program) rfl rfl hl
  obtain ⟨store, hp, -, hread⟩ := foldl_programByte_enabled data
    (address.foldl addressByte (s.beginOperation .program)) (by rw [hopen]; exact hw)
    (by rw [hopen]; exact hm)
  have hfree := unspecifiedRun_add (s := s)
    (t := address.foldl addressByte (s.beginOperation .program)) (m := 1 + s.addrLen)
    (n := data.length) (by rw [hopen]) (by rw [hopen])
  refine ⟨store, ?_, ?_⟩
  · rw [runProgram, hp, hfree, hopen]
    simp [operationAt, DecodedOperation.effectiveAddress, State.programAnomalies, Nat.add_assoc]
  · rw [hopen] at hread
    exact hread

/-- What a read transaction does (R120 to R124). -/
theorem runRead_eq (sent : List Byte) (hl : address.length = s.addrLen) :
    runRead address sent s = { s with
      fsm := .inDataPhase, opcodeSeen := true
      op := operationAt .read s.addrLen address sent.length
      responses := s.responses ++ s.unspecifiedRun (1 + s.addrLen)
        ++ s.readAnswers (addressValue address) sent.length
      log := s.log ++ s.readAnomalies (addressValue address) sent.length
      freeIndex := s.freeIndex + (1 + s.addrLen) } := by
  rw [runRead, beginOperation_address_data rfl rfl hl, foldl_readByte]
  simp only [operationAt, State.readAnswers, State.readAnomalies, List.range_eq_range', Nat.zero_add]
  rfl

/-- Reading back a range that holds `data` answers `data`. -/
theorem readAnswers_eq {base : Nat} {data : List Byte} (hcap : base + data.length ≤ s.cfg.capacity)
    (hdata : ∀ i (h : i < data.length), s.byteAt (base + i) = data[i]) :
    s.readAnswers base data.length = data := by
  refine List.ext_getElem (by simp [State.readAnswers]) fun i _ hi => ?_
  have hin : base + i < s.cfg.capacity := by omega
  simp [State.readAnswers, State.readAnswer, hin, hdata i hi]

/-! ## A program read back -/

/-- What is left once `END` has closed a program transaction that lay inside the store: the data stand
at their addresses, the latch is clear, the next transaction can begin (R95, R132). -/
structure Programmed (base : Nat) (data : List Byte) (s t : State) : Prop where
  cfg : t.cfg = s.cfg
  fsm : t.fsm = .idle
  wel : t.wel = false
  addrLen : t.addrLen = s.addrLen
  stored : ∀ i (h : i < data.length), t.byteAt (base + i) = data[i]

/-- A program transaction and `END` off the link, the data inside the store. -/
theorem run_pp_end (data : List Byte) {rest : List Event} (hm : StoreInv s) (hf : s.fsm = .idle)
    (hw : s.wel = true) (hb : (Instr.pp address data).boundBy s.cfg.opcodeMap)
    (hl : address.length = s.addrLen)
    (hcap : addressValue address + data.length ≤ s.cfg.capacity)
    (hlink : s.link = (encode (.pp address data)).map Event.byte ++ .endTransaction :: rest) :
    ∃ t, Host.Core.run core ((encode (.pp address data)).length + 1) s = .next t ∧
      t.link = rest ∧ Programmed (addressValue address) data s t := by
  obtain ⟨store, hp, hread⟩ := runProgram_enabled data
    (s := { s with link := .endTransaction :: rest }) hm hl hw
  have hrun := run_pp hf hb hl hlink
  rw [hp] at hrun
  refine ⟨_, (run_add hrun 1).trans (run_endTransaction rfl), rfl, rfl, rfl, rfl, rfl,
    fun i hi => (hread _).trans ?_⟩
  have hin : addressValue address + i < s.cfg.capacity := by omega
  rw [if_pos ⟨Nat.le_add_right _ _, Nat.add_lt_add_left hi _, hin⟩, Nat.add_sub_cancel_left,
    List.getD_eq_getElem _ _ hi]

end Transactions

/-- Settles O54: in the state the closed program transaction left, the read answers the bytes that
stand at the addresses, and leaves the latch as it is. -/
theorem readAfterProgramAnswersTheData : Obligations.ReadAfterProgramAnswersTheData := by
  intro s address data sent hm hf hw hmap hl hsent hcap hlink
  have hlen : s.link.length
      = (encode (.pp address data)).length + 1 + (encode (.read address sent)).length := by
    simp only [hlink, List.length_append, List.length_map, List.length_singleton]
  rw [List.append_assoc, List.singleton_append] at hlink
  obtain ⟨t, hrun, htlink, ht⟩ := run_pp_end data hm hf hw (by rw [hmap]; rfl) hl hcap hlink
  have hread := run_read (rest := []) ht.fsm (by rw [ht.cfg, hmap]; rfl)
    (hl.trans ht.addrLen.symm) (by rw [htlink, List.append_nil])
  rw [runRead_eq sent (s := { t with link := [] }) (hl.trans ht.addrLen.symm), hsent] at hread
  have hanswers : t.readAnswers (addressValue address) data.length = data :=
    readAnswers_eq (by rw [ht.cfg]; exact hcap) ht.stored
  have hall := (run_add hrun _).trans hread
  rw [← hlen] at hall
  exact ⟨_, _, hall, congrArg (List.append _) hanswers, ht.wel⟩

end Sys2Proof.Machine

/-! # The byte encoding (spec/30_encoding.md R70 to R78)

Decoding and encoding are inverse to each other: the decoder reads the opcode map at the opcode byte
only, so the default map stands for every map that binds the instruction, and an address phase is cut
off the operand bytes by its length alone. -/

namespace Sys2Proof

/-! ## The address phase -/

section AddressPhase

variable {addrLen : Nat} {address data : List Byte}

theorem addressPhaseOk_iff : addressPhaseOk addrLen address data = true ↔
    address.length = addrLen ∨ (address.length < addrLen ∧ data = []) := by
  simp [addressPhaseOk]

/-- The address and data bytes of a well-formed instruction can be told apart by the address length
alone (R70, R72). -/
theorem take_drop_of_addressPhaseOk (h : addressPhaseOk addrLen address data = true) :
    (address ++ data).take addrLen = address ∧ (address ++ data).drop addrLen = data := by
  obtain hwhole | ⟨hshort, rfl⟩ := addressPhaseOk_iff.mp h
  · exact ⟨List.take_left' hwhole, List.drop_left' hwhole⟩
  · rw [List.append_nil]
    exact ⟨List.take_of_length_le hshort.le, List.drop_of_length_le hshort.le⟩

theorem addressPhaseOk_take_drop (addrLen : Nat) (bytes : List Byte) :
    addressPhaseOk addrLen (bytes.take addrLen) (bytes.drop addrLen) = true := by
  rw [addressPhaseOk_iff, List.length_take, List.drop_eq_nil_iff]
  omega

/-- What is well-formed with data is well-formed without. -/
theorem addressPhaseOk_nil_of_addressPhaseOk (h : addressPhaseOk addrLen address data = true) :
    addressPhaseOk addrLen address [] = true :=
  addressPhaseOk_iff.mpr ((addressPhaseOk_iff.mp h).imp_right fun ⟨hlt, _⟩ => ⟨hlt, rfl⟩)

end AddressPhase

/-! ## The opcode maps -/

/-- The decoder reads the opcode map at the opcode byte and nowhere else (R75). -/
theorem decode_congr_opClassOf {map map' : OpcodeMap} {b : Byte} (addrLen : Nat)
    (bytes : List Byte) (h : opClassOf map b = opClassOf map' b) :
    decode map addrLen (b :: bytes) = decode map' addrLen (b :: bytes) := by
  rw [decode, h, decode]

/-- The 27 rows of R78 with no operand byte yet, in the order of the default map. -/
def tableRows : List Instr :=
  [ .rdid2 [], .rdid [], .miordid [],
    .read [] [], .fastRead [] [], .dofr [] [], .diofr [] [], .qofr [] [], .qiofr [] [],
    .pp [] [], .difp [] [], .edifp [] [], .qifp [] [], .eqifp [] [],
    .se [], .de [], .wren, .wrdi,
    .rdsr [], .rfsr [], .rdvcr [], .rdnvcr [], .rdvecr [],
    .wrsr [], .wrvcr [], .wrnvcr [], .wrvecr [] ]

theorem defaultOpcodeMap_eq_map_tableRows :
    defaultOpcodeMap = tableRows.map fun i => (i.opcode, i.opClass) := rfl

theorem boundBy_defaultOpcodeMap (i : Instr) : i.boundBy defaultOpcodeMap := by
  cases i <;> rfl

/-- Under the default map a byte bound to a class is the opcode byte of an instruction (R78). -/
theorem exists_opcode_eq_of_opClassOf_ne_unrecognized {b : Byte}
    (h : opClassOf defaultOpcodeMap b ≠ .unrecognized) : ∃ i : Instr, i.opcode = b := by
  cases hc : defaultOpcodeMap.lookup b with
  | none => exact absurd (by rw [opClassOf, hc]; rfl) h
  | some c =>
    have hmem : (b, c) ∈ tableRows.map fun i => (i.opcode, i.opClass) := by
      obtain ⟨before, after, hmap, -⟩ := List.lookup_eq_some_iff.mp hc
      rw [← defaultOpcodeMap_eq_map_tableRows, hmap]
      exact List.mem_append_right before List.mem_cons_self
    obtain ⟨i, -, hi⟩ := List.mem_map.mp hmem
    exact ⟨i, congrArg Prod.fst hi⟩

/-! ## Encode, then decode -/

/-- Decoding an encoded well-formed instruction under the default map, where the decoder evaluates: an
address phase is cut off its data bytes, every other operand byte is taken. -/
theorem decode_default_encode {addrLen : Nat} {i : Instr} (h : i.wf addrLen = true) :
    decode defaultOpcodeMap addrLen (encode i) = .instr i [] := by
  cases i with
  | rdid2 | rdid | miordid | wren | wrdi | rdsr | rfsr | rdvcr | rdnvcr | rdvecr
  | wrsr | wrvcr | wrnvcr | wrvecr => rfl
  | read address data | fastRead address data | dofr address data | diofr address data
  | qofr address data | qiofr address data | pp address data | difp address data
  | edifp address data | qifp address data | eqifp address data =>
    obtain ⟨htake, hdrop⟩ := take_drop_of_addressPhaseOk h
    exact congrArg (Decoded.instr · []) (congrArg₂ _ htake hdrop)
  | se address | de address =>
    obtain ⟨htake, hdrop⟩ := take_drop_of_addressPhaseOk h
    rw [List.append_nil] at htake hdrop
    exact congrArg₂ Decoded.instr (congrArg _ htake) hdrop

/-- Settles O1: the map agrees with the default map at the opcode byte. -/
theorem decodeOfEncodeIsIdentity : Obligations.DecodeOfEncodeIsIdentity := by
  intro map addrLen i hwf hbound
  calc decode map addrLen (encode i)
      = decode defaultOpcodeMap addrLen (encode i) :=
        decode_congr_opClassOf addrLen i.operands (hbound.trans (boundBy_defaultOpcodeMap i).symm)
    _ = .instr i [] := decode_default_encode hwf

/-! ## Decode, then encode -/

/-- What the default map decodes from the opcode byte of a row and the bytes that follow encodes back to
them, and is well-formed. -/
theorem encode_of_decode_default_opcode {addrLen : Nat} {row i : Instr} {bytes rest : List Byte}
    (h : decode defaultOpcodeMap addrLen (row.opcode :: bytes) = .instr i rest) :
    encode i ++ rest = row.opcode :: bytes ∧ i.wf addrLen = true := by
  have hphase := addressPhaseOk_take_drop addrLen bytes
  have hsplit : bytes.take addrLen ++ bytes.drop addrLen = bytes := List.take_append_drop ..
  cases row with
  | wren | wrdi =>
    obtain ⟨rfl, rfl⟩ := Decoded.instr.inj h
    exact ⟨rfl, rfl⟩
  | rdid2 | rdid | miordid | rdsr | rfsr | rdvcr | rdnvcr | rdvecr
  | wrsr | wrvcr | wrnvcr | wrvecr =>
    obtain ⟨rfl, rfl⟩ := Decoded.instr.inj h
    exact ⟨List.append_nil _, rfl⟩
  | read | fastRead | dofr | diofr | qofr | qiofr | pp | difp | edifp | qifp | eqifp =>
    obtain ⟨rfl, rfl⟩ := Decoded.instr.inj h
    exact ⟨(List.append_nil _).trans (congrArg (_ :: ·) hsplit), hphase⟩
  | se | de =>
    obtain ⟨rfl, rfl⟩ := Decoded.instr.inj h
    exact ⟨congrArg (_ :: ·) hsplit, addressPhaseOk_nil_of_addressPhaseOk hphase⟩

/-- Settles O2: a byte run that decodes begins with the opcode byte of a row of the table. -/
theorem encodeOfDecodeGivesBytesBack : Obligations.EncodeOfDecodeGivesBytesBack := by
  intro addrLen bytes rest i h
  cases bytes with
  | nil => cases h
  | cons b bytes =>
    have hclass : opClassOf defaultOpcodeMap b ≠ .unrecognized := fun hc => by
      rw [decode, hc] at h
      cases h
    obtain ⟨row, rfl⟩ := exists_opcode_eq_of_opClassOf_ne_unrecognized hclass
    exact encode_of_decode_default_opcode h

end Sys2Proof

/-! # The transaction state machine (spec/40_transaction.md R90 to R94)

The step in `Idle` is the decoded instruction; an address byte and a data byte are counted; the bytes of
an instruction, taken one at a time, are the meaning of the whole instruction. -/

namespace Sys2Proof.Machine

/-! ## The opcode byte -/

theorem linkByte_of_idle {s : State} (b : Byte) (h : s.fsm = .idle) :
    linkByte b s = opcodeByte b s := by
  rw [linkByte, h]

theorem opcodeByte_of_decode {s : State} {b : Byte} {i : Instr} {left : List Byte}
    (h : decode s.cfg.opcodeMap s.addrLen [b] = .instr i left) : opcodeByte b s = exec i s := by
  rw [opcodeByte, h]

/-- Settles O5: in `Idle` the byte goes to the decoder, and the link is no part of what it reads. -/
theorem stepRunsDecodedInstruction : Obligations.StepRunsDecodedInstruction := by
  intro s b rest i left hf hl hd
  calc step s
      = linkByte b { s with link := rest } := step_of_link_cons hl
    _ = opcodeByte b { s with link := rest } := linkByte_of_idle b hf
    _ = exec i { s with link := rest } := opcodeByte_of_decode hd

/-! ## The address phase -/

section AddressPhase

variable {s : State}

theorem finishAddress_of_data (h : s.fsm = .accAddrData) :
    s.finishAddress = { s with fsm := .inDataPhase } :=
  if_pos h

theorem takeAddressByte_eq (s : State) (b : Byte) :
    s.takeAddressByte b = { s with op := { s.op with
      accumulatedAddress := s.op.accumulatedAddress * 256 + b.toNat
      addressBytesReceived := s.op.addressBytesReceived + 1 } } := by
  rw [State.takeAddressByte, appendAddressByte_eq]

theorem respondUnspec_eq (s : State) : s.respondUnspec = { s with
    responses := s.responses ++ s.unspecifiedRun 1, freeIndex := s.freeIndex + 1 } := by
  rw [unspecifiedRun_one, State.respondUnspec]

/-- An address byte that executes no erase (R92). -/
theorem addressByte_eq (b : Byte)
    (h : s.fsm = .accAddrData ∨ s.op.addressBytesReceived + 1 ≠ s.op.addressLength) :
    addressByte s b = { s with
      fsm := if s.op.addressBytesReceived + 1 = s.op.addressLength then .inDataPhase else s.fsm
      op := { s.op with
        accumulatedAddress := s.op.accumulatedAddress * 256 + b.toNat
        addressBytesReceived := s.op.addressBytesReceived + 1 }
      responses := s.responses ++ s.unspecifiedRun 1
      freeIndex := s.freeIndex + 1 } := by
  by_cases hc : s.op.addressBytesReceived + 1 = s.op.addressLength
  · have hf : s.fsm = .accAddrData := h.resolve_right (not_not_intro hc)
    rw [addressByte_of_complete b hc, finishAddress_of_data (s := s.takeAddressByte b) hf,
      takeAddressByte_eq, respondUnspec_eq, if_pos hc]
    rfl
  · rw [addressByte_of_incomplete b hc, takeAddressByte_eq, respondUnspec_eq, if_neg hc]
    rfl

end AddressPhase

/-- Settles O20: the byte is `addressByte`, and it executes no erase. -/
theorem addressByteIsAppended : Obligations.AddressByteIsAppended := by
  intro s b rest hl hf h
  rw [step_of_link_byte hl]
  exact congrArg _
    ((byteEffect_of_address b (s := { s with link := rest }) hf).trans (addressByte_eq b h))

/-- Settles O34: each of the 13 instructions is its opcode byte and its address bytes, and the address
phase is not over. -/
theorem incompleteAddressDoesNothing : Obligations.IncompleteAddressDoesNothing := by
  intro s address kind i hi hl
  obtain ⟨haddress, hexec⟩ : kind.hasAddress = true ∧
      exec i s = .next (address.foldl addressByte (s.beginOperation kind)) := by
    simp only [List.mem_cons, List.not_mem_nil, or_false] at hi
    obtain ⟨rfl, hread⟩ | ⟨rfl, hprogram⟩ | ⟨rfl, rfl⟩ | ⟨rfl, rfl⟩ := hi
    · rcases hread with rfl | rfl | rfl | rfl | rfl | rfl <;> exact ⟨rfl, rfl⟩
    · rcases hprogram with rfl | rfl | rfl | rfl | rfl <;> exact ⟨rfl, rfl⟩
    · exact ⟨rfl, rfl⟩
    · exact ⟨rfl, rfl⟩
  rw [hexec, beginOperation_address_incomplete haddress hl]

/-! ## The count of data bytes -/

/-- In the data phase a byte changes the count and nothing else of the sequencer's position (R93). -/
theorem byteEffect_counts_data (b : Byte) {s : State} (hf : s.fsm = .inDataPhase) :
    (byteEffect b s).fsm = .inDataPhase ∧ (byteEffect b s).op =
      { s.op with bytesHandledInDataPhase := s.op.bytesHandledInDataPhase + 1 } := by
  obtain ⟨store, vcr, nvcr, evcr, answer, logged, freeIndex, he, -⟩ := dataByte_frame s b
  rw [byteEffect_of_data b hf, he]
  exact ⟨hf, rfl⟩

/-- Outside the data phase a byte keeps the count, or an opcode byte begins a new one (R26, R76). -/
theorem byteEffect_count_of_not_data (b : Byte) {s : State} (hf : s.fsm ≠ .inDataPhase) :
    (byteEffect b s).op.bytesHandledInDataPhase = 0 ∨
      (byteEffect b s).op.bytesHandledInDataPhase = s.op.bytesHandledInDataPhase := by
  cases hfsm : s.fsm with
  | idle =>
    obtain ⟨fsm, op, wel, logged, he, -, -, ⟨rfl, rfl⟩ | ⟨k, -, rfl, rfl⟩⟩ := opcodeEffect_frame b s
    · rw [byteEffect_of_idle b hfsm, he]
      exact .inr rfl
    · rw [byteEffect_of_idle b hfsm, he]
      exact .inl rfl
  | accAddrData => exact .inr (byteEffect_leaves_address_phase_iff b (.inl hfsm)).1
  | accAddrNoData => exact .inr (byteEffect_leaves_address_phase_iff b (.inr hfsm)).1
  | inDataPhase => exact absurd hfsm hf
  | noDataReady =>
    rw [byteEffect_of_ready b hfsm]
    exact .inr rfl

/-- Settles O21: by the state in which the byte is taken. -/
theorem everyDataByteIsCounted : Obligations.EveryDataByteIsCounted := by
  intro s t b rest hl h
  obtain rfl : byteEffect b { s with link := rest } = t := by
    rwa [step_of_link_byte hl, Host.Outcome.next.injEq] at h
  exact ⟨byteEffect_counts_data b (s := { s with link := rest }),
    byteEffect_count_of_not_data b (s := { s with link := rest })⟩

/-! ## The bytes of an instruction, one at a time -/

section Bytes

variable {s : State} {opcode : Byte} {address data : List Byte} {k : OpKind}

/-- The opcode byte of an operation with an address opens the address phase (R76). -/
theorem OpKind.firstFsm_of_hasAddress (h : k.hasAddress = true) :
    k.firstFsm = .accAddrData ∨ k.firstFsm = .accAddrNoData := by
  cases k with
  | read | program => exact .inl rfl
  | erase => exact .inr rfl
  | none | identify | readRegister | writeRegister => cases h

/-- A transaction without an address (R91, R93). -/
theorem runBytes_opcode_data {handler : State → Byte → State}
    (hh : ∀ (u : State) (b : Byte), u.op.kind = k → dataByte u b = handler u b)
    (hk : k.firstFsm = .inDataPhase) (hf : s.fsm = .idle)
    (ho : opcodeEffect opcode s = s.beginOperation k) :
    runBytes (opcode :: data) s = data.foldl handler (s.beginOperation k) := by
  rw [runBytes_cons, byteEffect_of_idle opcode hf, ho]
  exact runBytes_data hh data hk rfl

/-- The opcode byte and no more address bytes than the address takes (R91, R92). -/
theorem runBytes_opcode_address (ha : k.hasAddress = true) (hf : s.fsm = .idle)
    (ho : opcodeEffect opcode s = s.beginOperation k) (hl : address.length ≤ s.addrLen) :
    runBytes (opcode :: address) s = address.foldl addressByte (s.beginOperation k) := by
  rw [runBytes_cons, byteEffect_of_idle opcode hf, ho]
  exact runBytes_address address (OpKind.firstFsm_of_hasAddress ha)
    (by simpa [ha, DecodedOperation.empty] using hl)

/-- A transaction with an address and data, the address whole or the transaction cut short in it. -/
theorem runBytes_opcode_address_data {handler : State → Byte → State}
    (hh : ∀ (u : State) (b : Byte), u.op.kind = k → dataByte u b = handler u b)
    (hk : k.firstFsm = .accAddrData) (ha : k.hasAddress = true) (hf : s.fsm = .idle)
    (ho : opcodeEffect opcode s = s.beginOperation k)
    (hok : addressPhaseOk s.addrLen address data = true) :
    runBytes (opcode :: (address ++ data)) s
      = data.foldl handler (address.foldl addressByte (s.beginOperation k)) := by
  obtain hwhole | ⟨hshort, rfl⟩ := addressPhaseOk_iff.mp hok
  · exact runBytes_transaction hh hk ha data hf ho hwhole
  · rw [List.append_nil, List.foldl_nil]
    exact runBytes_opcode_address ha hf ho hshort.le

/-! The transactions of the opcode classes: each one's bytes are its `run` function. -/

theorem runBytes_identify (hf : s.fsm = .idle)
    (hc : opClassOf s.cfg.opcodeMap opcode = .identify) :
    runBytes (opcode :: data) s = runIdentify data s :=
  runBytes_opcode_data (fun u b hk => by rw [dataByte, hk]) rfl hf (by rw [opcodeEffect, hc])

theorem runBytes_readRegister {r : RegisterId} (hf : s.fsm = .idle)
    (hc : opClassOf s.cfg.opcodeMap opcode = .readRegister r) :
    runBytes (opcode :: data) s = runReadRegister r data s :=
  runBytes_opcode_data (fun u b hk => by rw [dataByte, hk]) rfl hf (by rw [opcodeEffect, hc])

theorem runBytes_writeRegister {r : RegisterId} (hf : s.fsm = .idle)
    (hc : opClassOf s.cfg.opcodeMap opcode = .writeRegister r) :
    runBytes (opcode :: data) s = runWriteRegister r data s :=
  runBytes_opcode_data (fun u b hk => by rw [dataByte, hk]) rfl hf (by rw [opcodeEffect, hc])

theorem runBytes_read (hf : s.fsm = .idle) (hc : opClassOf s.cfg.opcodeMap opcode = .read)
    (hok : addressPhaseOk s.addrLen address data = true) :
    runBytes (opcode :: (address ++ data)) s = runRead address data s :=
  runBytes_opcode_address_data (fun u b hk => by rw [dataByte, hk]) rfl rfl hf
    (opcodeEffect_of_read hc) hok

theorem runBytes_program (hf : s.fsm = .idle) (hc : opClassOf s.cfg.opcodeMap opcode = .program)
    (hok : addressPhaseOk s.addrLen address data = true) :
    runBytes (opcode :: (address ++ data)) s = runProgram address data s :=
  runBytes_opcode_address_data (fun u b hk => by rw [dataByte, hk]) rfl rfl hf
    (opcodeEffect_of_program hc) hok

theorem runBytes_erase {g : EraseGranularity} (hf : s.fsm = .idle)
    (hc : opClassOf s.cfg.opcodeMap opcode = .erase g)
    (hok : addressPhaseOk s.addrLen address [] = true) :
    runBytes (opcode :: address) s = runErase g address s :=
  runBytes_opcode_address rfl hf (by rw [opcodeEffect, hc])
    ((addressPhaseOk_iff.mp hok).elim Nat.le_of_eq fun ⟨hshort, _⟩ => hshort.le)

/-- The bytes of a well-formed instruction, taken one at a time from `Idle`, are its meaning
(R91 to R93). -/
theorem exec_eq_runBytes {i : Instr} (hf : s.fsm = .idle) (hwf : i.wf s.addrLen = true)
    (hb : i.boundBy s.cfg.opcodeMap) : exec i s = .next (runBytes (encode i) s) := by
  symm
  cases i with
  | rdid2 | rdid | miordid => exact congrArg _ (runBytes_identify hf hb)
  | read | fastRead | dofr | diofr | qofr | qiofr => exact congrArg _ (runBytes_read hf hb hwf)
  | pp | difp | edifp | qifp | eqifp => exact congrArg _ (runBytes_program hf hb hwf)
  | se | de => exact congrArg _ (runBytes_erase hf hb hwf)
  | wren | wrdi =>
    refine congrArg _ ((byteEffect_of_idle _ hf).trans ?_)
    rw [opcodeEffect, hb]
    rfl
  | rdsr | rfsr | rdvcr | rdnvcr | rdvecr => exact congrArg _ (runBytes_readRegister hf hb)
  | wrsr | wrvcr | wrnvcr | wrvecr => exact congrArg _ (runBytes_writeRegister hf hb)

end Bytes

/-- Settles O7: the run is the effect of the bytes one after the other, which the link does not
influence. -/
theorem runOfInstructionBytesIsExec : Obligations.RunOfInstructionBytesIsExec := by
  intro s i rest hf hwf hb hl
  exact (run_bytes _ s rest hl).trans (exec_eq_runBytes (s := { s with link := rest }) hf hwf hb).symm

end Sys2Proof.Machine

/-! # The latch commands (spec/41_latch_commands.md R110 to R112)

WREN and WRDI are one change of the latch with the two values of the bit. -/

namespace Sys2Proof.Machine

theorem exec_wren (s : State) : exec .wren s = .next (s.setLatch true) := rfl

theorem exec_wrdi (s : State) : exec .wrdi s = .next (s.setLatch false) := rfl

/-- A latch command sets the ghost bit and the latch, and answers one unspecified byte (R110). -/
theorem setLatch_eq (s : State) (w : Bool) : s.setLatch w = { s with
    opcodeSeen := true, wel := w,
    responses := s.responses ++ s.unspecifiedRun 1, freeIndex := s.freeIndex + 1 } := by
  rw [State.setLatch, respondUnspec_eq]
  rfl

/-- Settles O25: WREN is the change of the latch to 1. -/
theorem wrenSetsTheLatch : Obligations.WrenSetsTheLatch := by
  intro s
  rw [exec_wren, setLatch_eq]

/-- Settles O26: WRDI is the change of the latch to 0. -/
theorem wrdiClearsTheLatch : Obligations.WrdiClearsTheLatch := by
  intro s
  rw [exec_wrdi, setLatch_eq]

end Sys2Proof.Machine

/-! # The identification answers and the frame of the reading instructions (spec/42_identify.md)

An identification is one equation over all its bytes. What the reading instructions leave alone is one
projection of the state, which no byte of their transactions moves. -/

namespace Sys2Proof.Machine

/-! ## The reading instructions, by class -/

section ReadClasses

variable {s : State} {address sent : List Byte} {i : Instr}

theorem exec_of_mem_identify (hi : i ∈ [Instr.rdid sent, .rdid2 sent, .miordid sent]) :
    exec i s = .next (runIdentify sent s) := by
  simp only [List.mem_cons, List.not_mem_nil, or_false] at hi
  rcases hi with rfl | rfl | rfl <;> rfl

theorem exec_of_mem_read (hi : i ∈ [Instr.read address sent, .fastRead address sent,
      .dofr address sent, .diofr address sent, .qofr address sent, .qiofr address sent]) :
    exec i s = .next (runRead address sent s) := by
  simp only [List.mem_cons, List.not_mem_nil, or_false] at hi
  rcases hi with rfl | rfl | rfl | rfl | rfl | rfl <;> rfl

theorem exec_of_mem_readRegister
    (hi : i ∈ [Instr.rdsr sent, .rfsr sent, .rdvcr sent, .rdnvcr sent, .rdvecr sent]) :
    ∃ r, exec i s = .next (runReadRegister r sent s) := by
  simp only [List.mem_cons, List.not_mem_nil, or_false] at hi
  rcases hi with rfl | rfl | rfl | rfl | rfl <;> exact ⟨_, rfl⟩

end ReadClasses

/-! ## The identification -/

/-- What an identification transaction does (R115): the data phase counts from the table's first byte. -/
theorem runIdentify_eq (sent : List Byte) (s : State) :
    runIdentify sent s = { s with
      fsm := .inDataPhase, opcodeSeen := true, op := operationWithData .identify sent.length
      responses := s.responses ++ s.unspecifiedRun 1 ++ s.identifyAnswers sent.length
      log := s.log ++ s.identifyAnomalies sent.length, freeIndex := s.freeIndex + 1 } := by
  have hstart : (s.beginOperation .identify).op = operationWithData .identify 0 := rfl
  rw [runIdentify, foldl_identifyByte, hstart, unspecifiedRun_one, State.identifyAnswers,
    State.identifyAnomalies, List.range_eq_range']
  simp only [operationWithData, Nat.zero_add]
  rfl

/-- Settles O27: the three instructions are one transaction. -/
theorem identifyAnswersTheTable : Obligations.IdentifyAnswersTheTable := by
  intro s sent i hi
  rw [exec_of_mem_identify hi, runIdentify_eq]

/-! ## What a reading transaction leaves alone -/

/-- The state without the sequencer's position, the ghost bit and the outputs: the latch, the registers,
the store, the link and the configuration (R20). -/
def State.contents (s : State) : State :=
  { s with
    fsm := .idle, op := DecodedOperation.empty, opcodeSeen := false
    responses := [], log := [], freeIndex := 0 }

theorem contents_eq_iff {s t : State} : t.contents = s.contents ↔
    t.wel = s.wel ∧ t.vcr = s.vcr ∧ t.nvcr = s.nvcr ∧ t.evcr = s.evcr ∧
    t.link = s.link ∧ t.cfg = s.cfg ∧ t.store = s.store := by
  simp only [State.contents, State.mk.injEq]
  tauto

theorem byteAt_congr {s t : State} (hcfg : t.cfg = s.cfg) (hstore : t.store = s.store) (a : Nat) :
    t.byteAt a = s.byteAt a := by
  rw [State.byteAt, hcfg, hstore, State.byteAt]

section Contents

variable (s : State) (address sent : List Byte)

theorem beginOperation_contents (k : OpKind) : (s.beginOperation k).contents = s.contents := rfl

/-- However many address bytes arrive, only the address of an Erase can touch the contents (R92). -/
theorem foldl_addressByte_contents {s : State} (hk : ∀ g, s.op.kind ≠ .erase g) :
    (address.foldl addressByte s).contents = s.contents := by
  induction address generalizing s with
  | nil => rfl
  | cons b address ih =>
    obtain ⟨fsm, store, logged, he, -, -, -, hstore, -, -⟩ := addressByte_frame s b
    have hkind : ∀ g, (addressByte s b).op.kind ≠ .erase g := by rwa [he]
    rw [List.foldl_cons, ih hkind, he, hstore hk]
    rfl

theorem runIdentify_contents : (runIdentify sent s).contents = s.contents := by
  rw [runIdentify_eq]
  rfl

theorem runRead_contents : (runRead address sent s).contents = s.contents := by
  rw [runRead, foldl_readByte]
  calc (address.foldl addressByte (s.beginOperation .read)).contents
      = (s.beginOperation .read).contents := foldl_addressByte_contents address (by simp)
    _ = s.contents := beginOperation_contents s .read

theorem runReadRegister_contents (r : RegisterId) :
    (runReadRegister r sent s).contents = s.contents := by
  rw [runReadRegister, foldl_readRegisterByte]
  rfl

end Contents

/-- Settles O42: each of the three classes leaves the contents alone, and they hold all that is claimed
unchanged. -/
theorem readClassFrame : Obligations.ReadClassFrame := by
  intro s t address sent i hi h
  have hcontents : t.contents = s.contents := by
    change i ∈ [_, _, _] ++ ([_, _, _, _, _, _] ++ [_, _, _, _, _]) at hi
    rw [List.mem_append, List.mem_append] at hi
    obtain hidentify | hread | hregister := hi
    · obtain rfl := Host.Outcome.next.inj ((exec_of_mem_identify hidentify).symm.trans h)
      exact runIdentify_contents s sent
    · obtain rfl := Host.Outcome.next.inj ((exec_of_mem_read hread).symm.trans h)
      exact runRead_contents s address sent
    · obtain ⟨r, hr⟩ := exec_of_mem_readRegister hregister
      obtain rfl := Host.Outcome.next.inj (hr.symm.trans h)
      exact runReadRegister_contents s sent r
  obtain ⟨hwel, hvcr, hnvcr, hevcr, hlink, hcfg, hstore⟩ := contents_eq_iff.mp hcontents
  exact ⟨hwel, hvcr, hnvcr, hevcr, hlink, hcfg, byteAt_congr hcfg hstore⟩

end Sys2Proof.Machine

/-! # The store reads (spec/43_read.md R120 to R129) -/

namespace Sys2Proof.Machine

/-- Settles O28: the six instructions are one transaction, whose data phase begins right after the
address. -/
theorem readAnswersStoreBytes : Obligations.ReadAnswersStoreBytes := by
  intro s address sent i hi hl
  rw [exec_of_mem_read hi, runRead_eq sent hl]

end Sys2Proof.Machine

/-! # The store programs (spec/44_program.md R130 to R139)

The five instructions are one transaction. With the latch set it is `runProgram_enabled`, with the latch
clear `runProgram_disabled`; its frame holds of any store, canonical or not, and of either latch. -/

namespace Sys2Proof.Machine

section Programs

variable {s : State} {address data : List Byte}

theorem exec_of_mem_program {i : Instr} (hi : i ∈ [Instr.pp address data, .difp address data,
      .edifp address data, .qifp address data, .eqifp address data]) :
    exec i s = .next (runProgram address data s) := by
  simp only [List.mem_cons, List.not_mem_nil, or_false] at hi
  rcases hi with rfl | rfl | rfl | rfl | rfl <;> rfl

/-- What a program transaction with the latch clear does, whatever its address (R131). -/
theorem runProgram_disabled (data : List Byte) (hl : address.length = s.addrLen)
    (hw : s.wel = false) :
    runProgram address data s = { s with
      fsm := .inDataPhase, opcodeSeen := true
      op := operationAt .program s.addrLen address data.length
      responses := s.responses ++ s.unspecifiedRun (1 + s.addrLen) ++ data
      log := s.log ++ data.map .permProgram, freeIndex := s.freeIndex + (1 + s.addrLen) } := by
  rw [runProgram, beginOperation_address_data rfl rfl hl,
    foldl_programByte_disabled data _ (by exact hw)]
  simp only [operationAt, Nat.zero_add]

/-! ## What a program leaves alone -/

/-- A data byte of a Program is counted and answered, and changes no byte of the store but the one at
its effective address (R130, R55). -/
theorem programByte_frame (s : State) (b : Byte) : ∃ store responses log freeIndex,
    programByte s b = { s with
      op := { s.op with bytesHandledInDataPhase := s.op.bytesHandledInDataPhase + 1 }
      store := store, responses := responses, log := log, freeIndex := freeIndex } ∧
    ∀ a, a ≠ s.op.effectiveAddress → Memory.read s.cfg.erased store a = s.byteAt a := by
  obtain hw | hw := Bool.eq_false_or_eq_true s.wel
  · refine ⟨_, _, _, _, programByte_of_enabled b hw, fun a ha => ?_⟩
    split
    · exact Memory.read_write_other ha
    · rfl
  · exact ⟨_, _, _, _, programByte_of_disabled b hw, fun _ _ => rfl⟩

/-- The data phase of a Program changes no byte of the store outside the addresses its bytes go to. -/
theorem foldl_programByte_frame (bytes : List Byte) (s : State) : ∃ store responses log freeIndex,
    bytes.foldl programByte s = { s with
      op := { s.op with
        bytesHandledInDataPhase := s.op.bytesHandledInDataPhase + bytes.length }
      store := store, responses := responses, log := log, freeIndex := freeIndex } ∧
    ∀ a, ¬(s.op.effectiveAddress ≤ a ∧ a < s.op.effectiveAddress + bytes.length) →
      Memory.read s.cfg.erased store a = s.byteAt a := by
  induction bytes generalizing s with
  | nil => exact ⟨_, _, _, _, rfl, fun _ _ => rfl⟩
  | cons b bytes ih =>
    obtain ⟨store, responses, log, freeIndex, hbyte, hread⟩ := programByte_frame s b
    obtain ⟨store', responses', log', freeIndex', hrest, hread'⟩ := ih (programByte s b)
    rw [hbyte] at hrest hread'
    refine ⟨store', responses', log', freeIndex', ?_, fun a ha => (hread' a ?_).trans (hread a ?_)⟩
    · rw [List.foldl_cons, hbyte, hrest, List.length_cons, Nat.add_assoc, Nat.add_comm 1]
    all_goals
      simp only [DecodedOperation.effectiveAddress, List.length_cons] at ha ⊢
      omega

end Programs

/-- Settles O29: the five instructions are one transaction, whose store is that of its data phase. -/
theorem programStoresItsBytes : Obligations.ProgramStoresItsBytes := by
  intro s address data i hi hs hl hw
  obtain ⟨store, hrun, hread⟩ := runProgram_enabled data hs hl hw
  rw [exec_of_mem_program hi, hrun]
  exact ⟨_, rfl, rfl, hread⟩

/-- Settles O30: no data byte looks at its address once the latch is found clear. -/
theorem programWithoutLatchEchoes : Obligations.ProgramWithoutLatchEchoes := by
  intro s address data i hi hl hw
  rw [exec_of_mem_program hi, runProgram_disabled data hl hw]

/-- Settles O43: the data phase begins at the address with nothing but the sequencer and the outputs
changed, and its frame gives the rest. -/
theorem programFrame : Obligations.ProgramFrame := by
  intro s t address data i hi hl h
  obtain rfl := Host.Outcome.next.inj ((exec_of_mem_program hi).symm.trans h)
  have hopen := beginOperation_address_data (s := s) (k := .program) rfl rfl hl
  obtain ⟨store, responses, log, freeIndex, hrun, hread⟩ := foldl_programByte_frame data
    (address.foldl addressByte (s.beginOperation .program))
  rw [hopen] at hrun hread
  rw [runProgram, hopen, hrun]
  exact ⟨rfl, rfl, rfl, rfl, rfl, rfl, hread⟩

end Sys2Proof.Machine

/-! # The erases (spec/45_erase.md R140 to R148)

The two instructions are one transaction, which differs in the run of addresses it fills. With a whole
address it either fills that run or logs one anomaly (`runErase_of_fits`, `runErase_of_rejected`); a frame
for every address, complete or not, follows from the two. -/

namespace Sys2Proof.Machine

/-! ## The addresses an erase fills -/

/-- The first address an erase fills: that of the sector (R143), or of the store (R144). -/
def eraseBase (c : Cfg) (a : Nat) : EraseGranularity → Nat
  | .sector => sectorBase c.sectorSize a
  | .die => 0

/-- How many addresses an erase fills (R143, R144). -/
def eraseSize (c : Cfg) : EraseGranularity → Nat
  | .sector => c.sectorSize
  | .die => c.capacity

theorem Cfg.sectorSize_pos_of_wf {c : Cfg} (hc : c.wf = true) : 0 < c.sectorSize := by
  simp only [Cfg.wf, Bool.and_eq_true, decide_eq_true_eq] at hc
  obtain ⟨⟨⟨⟨-, hpos⟩, -⟩, -⟩, -⟩ := hc
  exact hpos

/-- The addresses of the sector of `x` are those with the same quotient by the sector size (R59). -/
theorem mem_sector_iff {n : Nat} (hn : 0 < n) (x a : Nat) :
    (sectorBase n x ≤ a ∧ a < sectorBase n x + n) ↔ a / n = x / n := by
  rw [sectorBase, ← Nat.div_mul_self_eq_mod_sub_self, Nat.div_eq_iff hn]
  exact and_congr_right' (Nat.lt_iff_le_pred (Nat.add_pos_right _ hn))

section Erases

variable {s : State} {address : List Byte} {g : EraseGranularity}

/-! ## The erase itself, of either granularity -/

theorem executeErase_of_fits (hk : s.op.kind = .erase g) (hw : s.wel = true)
    (hfits : eraseBase s.cfg s.op.accumulatedAddress g + eraseSize s.cfg g ≤ s.cfg.capacity) :
    executeErase s = { s with
      store := Memory.fill s.cfg.erased s.store (eraseBase s.cfg s.op.accumulatedAddress g)
        (eraseSize s.cfg g) s.cfg.erased } := by
  cases g with
  | sector => exact executeErase_sector hk hw hfits
  | die => exact executeErase_die hk hw

/-- The latch is tested first (R140, D20); a die erase always fits. -/
theorem executeErase_of_rejected (hk : s.op.kind = .erase g)
    (h : s.wel = false ∨
      s.cfg.capacity < eraseBase s.cfg s.op.accumulatedAddress g + eraseSize s.cfg g) :
    executeErase s = s.emit (if s.wel then .boundsErase s.op.accumulatedAddress
      else .permErase g s.op.accumulatedAddress) := by
  cases hw : s.wel with
  | false => exact executeErase_of_disabled hk hw
  | true =>
    have hout := h.resolve_left (by simp [hw])
    cases g with
    | sector => exact executeErase_sector_out_of_range hk hw hout
    | die => simp [eraseBase, eraseSize] at hout

/-! ## The transaction -/

theorem exec_of_erase {i : Instr}
    (hi : (i = .se address ∧ g = .sector) ∨ (i = .de address ∧ g = .die)) :
    exec i s = .next (runErase g address s) := by
  obtain ⟨rfl, rfl⟩ | ⟨rfl, rfl⟩ := hi <;> rfl

/-- The state in which the last address byte executes the erase (R92). -/
def State.eraseReady (s : State) (g : EraseGranularity) (address : List Byte) : State :=
  { s with
    fsm := .noDataReady, opcodeSeen := true, op := operationAt (.erase g) s.addrLen address 0
    responses := s.responses ++ s.unspecifiedRun s.addrLen
    freeIndex := s.freeIndex + s.addrLen }

/-- An erase transaction with a whole address is its erase, between the responses to the opcode byte and
to the address bytes. -/
theorem runErase_of_executeErase (hl : address.length = s.addrLen) {store : Memory}
    {log : List Anomaly} (he : executeErase (s.eraseReady g address)
      = { s.eraseReady g address with store := store, log := log }) :
    runErase g address s = { s with
      fsm := .noDataReady, opcodeSeen := true, op := operationAt (.erase g) s.addrLen address 0
      store := store, responses := s.responses ++ s.unspecifiedRun (1 + s.addrLen), log := log
      freeIndex := s.freeIndex + (1 + s.addrLen) } := by
  have hrun : runErase g address s = (executeErase (s.eraseReady g address)).respondUnspec :=
    beginOperation_address_erase hl
  rw [hrun, he, Nat.add_comm 1,
    unspecifiedRun_add (s := s) (t := { s with freeIndex := s.freeIndex + s.addrLen }) rfl rfl,
    ← List.append_assoc]
  exact respondUnspec_eq _

/-- What an erase transaction does that is not turned away (R143, R144). -/
theorem runErase_of_fits (hl : address.length = s.addrLen) (hw : s.wel = true)
    (hfits : eraseBase s.cfg (addressValue address) g + eraseSize s.cfg g ≤ s.cfg.capacity) :
    runErase g address s = { s with
      fsm := .noDataReady, opcodeSeen := true, op := operationAt (.erase g) s.addrLen address 0
      store := Memory.fill s.cfg.erased s.store (eraseBase s.cfg (addressValue address) g)
        (eraseSize s.cfg g) s.cfg.erased
      responses := s.responses ++ s.unspecifiedRun (1 + s.addrLen)
      freeIndex := s.freeIndex + (1 + s.addrLen) } :=
  runErase_of_executeErase hl (executeErase_of_fits (s := s.eraseReady g address) rfl hw hfits)

/-- What an erase transaction does that is turned away (R141, R143). -/
theorem runErase_of_rejected (hl : address.length = s.addrLen)
    (h : s.wel = false ∨
      s.cfg.capacity < eraseBase s.cfg (addressValue address) g + eraseSize s.cfg g) :
    runErase g address s = { s with
      fsm := .noDataReady, opcodeSeen := true, op := operationAt (.erase g) s.addrLen address 0
      responses := s.responses ++ s.unspecifiedRun (1 + s.addrLen)
      log := s.log ++ [if s.wel then .boundsErase (addressValue address)
        else .permErase g (addressValue address)]
      freeIndex := s.freeIndex + (1 + s.addrLen) } :=
  runErase_of_executeErase hl (executeErase_of_rejected (s := s.eraseReady g address) rfl h)

/-- An erase transaction, its address complete or not, changes the sequencer, the outputs, and the bytes
at the addresses it fills, all of them inside the store. -/
theorem runErase_frame (g : EraseGranularity) (hl : address.length ≤ s.addrLen) :
    ∃ fsm op store responses log freeIndex,
      runErase g address s = { s with
        fsm := fsm, opcodeSeen := true, op := op, store := store
        responses := responses, log := log, freeIndex := freeIndex } ∧
      ∀ a, ¬(eraseBase s.cfg (addressValue address) g ≤ a ∧
          a < eraseBase s.cfg (addressValue address) g + eraseSize s.cfg g ∧ a < s.cfg.capacity) →
        Memory.read s.cfg.erased store a = s.byteAt a := by
  obtain hshort | hwhole := Nat.lt_or_eq_of_le hl
  · exact ⟨_, _, _, _, _, _, beginOperation_address_incomplete rfl hshort, fun _ _ => rfl⟩
  by_cases h : s.wel = false ∨
      s.cfg.capacity < eraseBase s.cfg (addressValue address) g + eraseSize s.cfg g
  · exact ⟨_, _, _, _, _, _, runErase_of_rejected hwhole h, fun _ _ => rfl⟩
  · rw [not_or, Bool.not_eq_false, Nat.not_lt] at h
    obtain ⟨hw, hfits⟩ := h
    refine ⟨_, _, _, _, _, _, runErase_of_fits hwhole hw hfits, fun a ha => ?_⟩
    exact Memory.read_fill_blank.trans (if_neg fun hin => ha ⟨hin.1, hin.2, by omega⟩)

end Erases

/-- Settles O31: the sector of an address inside the store fits in it, and its bytes are those
`mem_sector_iff` names. -/
theorem sectorEraseFillsItsSector : Obligations.SectorEraseFillsItsSector := by
  intro s address hc hl hw ha
  have hrun := runErase_of_fits (g := .sector) hl hw ((sector_fits_iff hc _).mpr ha)
  rw [exec_of_erase (.inl ⟨rfl, rfl⟩), hrun]
  refine ⟨_, rfl, rfl, fun a => ?_⟩
  simp only [← mem_sector_iff (Cfg.sectorSize_pos_of_wf hc)]
  exact Memory.read_fill_blank

/-- Settles O33: an address beyond the store puts its sector beyond the store, so either reason turns
the erase away. -/
theorem rejectedEraseChangesNoByte : Obligations.RejectedEraseChangesNoByte := by
  intro s address g i hi hc hl h
  rw [exec_of_erase hi, runErase_of_rejected hl]
  refine h.imp_right ?_
  rintro ⟨rfl, hout⟩
  exact Nat.not_le.mp fun hfits => Nat.not_lt.mpr hout ((sector_fits_iff hc _).mp hfits)

/-- Settles O44: what SE and DE fill lies inside the store, and for SE inside the sector. -/
theorem eraseFrame : Obligations.EraseFrame := by
  intro s t address i hi hl h
  obtain ⟨g, hg⟩ : ∃ g : EraseGranularity,
      (i = .se address ∧ g = .sector) ∨ (i = .de address ∧ g = .die) := by
    simpa [exists_or] using hi
  obtain rfl := Host.Outcome.next.inj ((exec_of_erase hg).symm.trans h)
  obtain ⟨fsm, op, store, responses, log, freeIndex, hrun, hread⟩ := runErase_frame g hl
  rw [hrun]
  refine ⟨rfl, rfl, rfl, rfl, rfl, rfl, fun a ha => hread a (by omega), ?_⟩
  rintro rfl a ha
  obtain rfl : g = .sector := by simpa using hg
  exact hread a fun hin => ha ⟨hin.1, hin.2.1⟩

end Sys2Proof.Machine

/-! # The register reads (spec/46_register_read.md R150 to R161)

A register read is one equation over all its bytes, whose answers are `State.registerByte` of the byte's
index. VCR and EVCR, on which nothing else the block does depends (D7), are changed together by
`State.withCosmetic`: but for `RESET` and a data byte of their own read or write, a step commutes with
that change. -/

namespace Sys2Proof.Machine

/-! ## The answers -/

/-- What a register-read transaction does (R150): the data phase counts from the register's first byte. -/
theorem runReadRegister_eq (r : RegisterId) (sent : List Byte) (s : State) :
    runReadRegister r sent s = { s with
      fsm := .inDataPhase, opcodeSeen := true
      op := operationWithData (.readRegister r) sent.length
      responses := s.responses ++ s.unspecifiedRun 1 ++ (List.range sent.length).map (s.registerByte r)
      freeIndex := s.freeIndex + 1 } := by
  have hstart : (s.beginOperation (.readRegister r)).op = operationWithData (.readRegister r) 0 := rfl
  have hbyte : (s.beginOperation (.readRegister r)).registerByte r = s.registerByte r := by
    cases r <;> rfl
  rw [runReadRegister, foldl_readRegisterByte, hstart, hbyte, unspecifiedRun_one,
    List.range_eq_range']
  simp only [operationWithData, Nat.zero_add]
  rfl

section Answers

variable (s : State)

/-- If every index answers `v`, so does every byte of a run. -/
theorem map_registerByte_eq_replicate {r : RegisterId} {v : Byte} {indices : List Nat}
    (h : ∀ i ∈ indices, s.registerByte r i = v) :
    indices.map (s.registerByte r) = List.replicate indices.length v := by
  rw [List.map_congr_left h, List.map_const']

theorem lowByte_eq_ofNat (v : HalfWord) : lowByte v = BitVec.ofNat 8 (v.toNat % 256) := by
  rw [← lowByte_toNat, BitVec.ofNat_toNat, BitVec.setWidth_eq]

theorem highByte_eq_ofNat (v : HalfWord) : highByte v = BitVec.ofNat 8 (v.toNat / 256) := by
  rw [← highByte_toNat, BitVec.ofNat_toNat, BitVec.setWidth_eq]

theorem registerByte_nonVolatile_of_two_le {i : Nat} (h : 2 ≤ i) :
    s.registerByte .nonVolatileConfig i = s.cfg.readFiller := by
  rw [State.registerByte, if_neg (by omega), if_neg (by omega)]

/-- The two-byte register answers its two bytes, then the filler (R152), as far as bytes are sent. -/
theorem map_registerByte_nonVolatile : ∀ n : Nat,
    (List.range n).map (s.registerByte .nonVolatileConfig)
      = ([lowByte s.nvcr, highByte s.nvcr] ++ List.replicate (n - 2) s.cfg.readFiller).take n
  | 0 => rfl
  | 1 => rfl
  | n + 2 => by
    have hfiller : (List.range' 2 n).map (s.registerByte .nonVolatileConfig)
        = List.replicate n s.cfg.readFiller := by
      rw [map_registerByte_eq_replicate s fun i hi =>
        registerByte_nonVolatile_of_two_le s (List.mem_range'_1.mp hi).1, List.length_range']
    rw [Nat.add_sub_cancel, List.take_of_length_le (by simp), ← hfiller, List.range_eq_range']
    rfl

end Answers

/-- Settles O35: none of the four registers looks at the index of the byte. -/
theorem oneByteRegistersRepeat : Obligations.OneByteRegistersRepeat := by
  intro s sent r v i hi
  obtain ⟨hexec, hrepeat⟩ :
      exec i s = .next (runReadRegister r sent s) ∧ ∀ n, s.registerByte r n = v := by
    obtain ⟨rfl, rfl, rfl⟩ | ⟨rfl, rfl, rfl⟩ | ⟨rfl, rfl, rfl⟩ | ⟨rfl, rfl, rfl⟩ := hi <;>
      exact ⟨rfl, fun _ => rfl⟩
  rw [hexec, runReadRegister_eq, map_registerByte_eq_replicate s fun n _ => hrepeat n,
    List.length_range]

/-- Settles O36: the answers are `map_registerByte_nonVolatile`. -/
theorem nonVolatileReadLowThenHigh : Obligations.NonVolatileReadLowThenHigh := by
  intro s sent
  have hexec : exec (.rdnvcr sent) s = .next (runReadRegister .nonVolatileConfig sent s) := rfl
  rw [hexec, runReadRegister_eq, map_registerByte_nonVolatile, lowByte_eq_ofNat, highByte_eq_ofNat]

/-! ## Other values of the two configuration registers -/

/-- `s` with other values of the two registers that influence nothing (D7). -/
def State.withCosmetic (s : State) (vcr evcr : Byte) : State :=
  { s with vcr := vcr, evcr := evcr }

/-- The next byte is answered with one of the two registers (R150). -/
def State.readsCosmetic (s : State) : Prop :=
  s.fsm = .inDataPhase ∧ (s.op.kind = .readRegister .volatileConfig ∨
    s.op.kind = .readRegister .enhancedVolatileConfig)

/-- `t` comes of `s` and `u` of `s.withCosmetic vcr evcr` by one step that answers neither register:
they differ in the two registers at most, and each of the two was kept in both or written alike. -/
structure CosmeticStep (s : State) (vcr evcr : Byte) (t u : State) : Prop where
  alike : u.withCosmetic t.vcr t.evcr = t
  vcr : (u.vcr = vcr ∧ t.vcr = s.vcr) ∨ u.vcr = t.vcr
  evcr : (u.evcr = evcr ∧ t.evcr = s.evcr) ∨ u.evcr = t.evcr

section Cosmetic

variable {s t u : State} {vcr evcr : Byte}

/-- What commutes with every change of the two registers keeps them: take the change that is none. -/
theorem CosmeticStep.of_commutes {f : State → State}
    (h : ∀ vcr evcr, f (s.withCosmetic vcr evcr) = (f s).withCosmetic vcr evcr) :
    CosmeticStep s vcr evcr (f s) (f (s.withCosmetic vcr evcr)) := by
  have hkept : f s = (f s).withCosmetic s.vcr s.evcr := h s.vcr s.evcr
  rw [h]
  exact ⟨rfl, .inl ⟨rfl, (congrArg State.vcr hkept :)⟩, .inl ⟨rfl, (congrArg State.evcr hkept :)⟩⟩

/-- Answering and counting a byte touches neither register. -/
theorem CosmeticStep.answered (h : CosmeticStep s vcr evcr t u) :
    CosmeticStep s vcr evcr t.respondUnspec.countDataByte u.respondUnspec.countDataByte :=
  ⟨congrArg (fun v : State => v.respondUnspec.countDataByte) h.alike, h.vcr, h.evcr⟩

variable (s vcr evcr)

/-! ### The bytes that touch neither register -/

theorem opcodeEffect_withCosmetic (b : Byte) :
    opcodeEffect b (s.withCosmetic vcr evcr) = (opcodeEffect b s).withCosmetic vcr evcr := by
  have hcfg : (s.withCosmetic vcr evcr).cfg = s.cfg := rfl
  rw [opcodeEffect, hcfg, opcodeEffect]
  cases opClassOf s.cfg.opcodeMap b <;> rfl

theorem executeErase_withCosmetic :
    executeErase (s.withCosmetic vcr evcr) = (executeErase s).withCosmetic vcr evcr := by
  cases hk : s.op.kind with
  | erase g =>
    by_cases h : s.wel = false ∨
        s.cfg.capacity < eraseBase s.cfg s.op.accumulatedAddress g + eraseSize s.cfg g
    · rw [executeErase_of_rejected hk h,
        executeErase_of_rejected (s := s.withCosmetic vcr evcr) hk h]
      rfl
    · rw [not_or, Bool.not_eq_false, Nat.not_lt] at h
      obtain ⟨hw, hfits⟩ := h
      rw [executeErase_of_fits hk hw hfits,
        executeErase_of_fits (s := s.withCosmetic vcr evcr) hk hw hfits]
      rfl
  | _ => simp [executeErase, State.withCosmetic, hk]

theorem finishAddress_withCosmetic :
    (s.withCosmetic vcr evcr).finishAddress = s.finishAddress.withCosmetic vcr evcr := by
  by_cases hf : s.fsm = .accAddrData
  · rw [finishAddress_of_data hf, finishAddress_of_data (s := s.withCosmetic vcr evcr) hf]
    rfl
  · rw [State.finishAddress, if_neg (show ¬(s.withCosmetic vcr evcr).fsm = _ from hf),
      State.finishAddress, if_neg hf]
    exact executeErase_withCosmetic { s with fsm := .noDataReady } vcr evcr

theorem addressByte_withCosmetic (b : Byte) :
    addressByte (s.withCosmetic vcr evcr) b = (addressByte s b).withCosmetic vcr evcr := by
  by_cases hc : s.op.addressBytesReceived + 1 = s.op.addressLength
  · rw [addressByte_of_complete b hc,
      addressByte_of_complete (s := s.withCosmetic vcr evcr) b hc]
    exact congrArg State.respondUnspec (finishAddress_withCosmetic (s.takeAddressByte b) vcr evcr)
  · rw [addressByte_of_incomplete b hc,
      addressByte_of_incomplete (s := s.withCosmetic vcr evcr) b hc]
    rfl

theorem programByte_withCosmetic (b : Byte) :
    programByte (s.withCosmetic vcr evcr) b = (programByte s b).withCosmetic vcr evcr := by
  cases hw : s.wel with
  | false =>
    rw [programByte_of_disabled b hw, programByte_of_disabled (s := s.withCosmetic vcr evcr) b hw]
    rfl
  | true =>
    rw [programByte_of_enabled b hw, programByte_of_enabled (s := s.withCosmetic vcr evcr) b hw]
    rfl

/-! ### The data bytes of the registers -/

/-- The other three registers answer alike (R150). -/
theorem readRegisterByte_withCosmetic {r : RegisterId} (b : Byte)
    (hv : r ≠ .volatileConfig) (he : r ≠ .enhancedVolatileConfig) :
    readRegisterByte r (s.withCosmetic vcr evcr) b
      = (readRegisterByte r s b).withCosmetic vcr evcr := by
  cases r with
  | status | flagStatus | nonVolatileConfig => rfl
  | volatileConfig => exact absurd rfl hv
  | enhancedVolatileConfig => exact absurd rfl he

/-- Whether a register write is taken does not depend on the two registers (R165). -/
theorem writeRegister_cosmeticStep (r : RegisterId) (i : Nat) (b : Byte) :
    CosmeticStep s vcr evcr (s.writeRegister r i b)
      ((s.withCosmetic vcr evcr).writeRegister r i b) := by
  have hwel : (s.withCosmetic vcr evcr).wel = s.wel := rfl
  cases r with
  | status | flagStatus => exact ⟨rfl, .inl ⟨rfl, rfl⟩, .inl ⟨rfl, rfl⟩⟩
  | volatileConfig =>
    simp only [State.writeRegister, hwel]
    split_ifs
    · exact ⟨rfl, .inl ⟨rfl, rfl⟩, .inl ⟨rfl, rfl⟩⟩
    · exact ⟨rfl, .inl ⟨rfl, rfl⟩, .inl ⟨rfl, rfl⟩⟩
    · exact ⟨rfl, .inr rfl, .inl ⟨rfl, rfl⟩⟩
  | nonVolatileConfig =>
    simp only [State.writeRegister, hwel]
    split_ifs <;> exact ⟨rfl, .inl ⟨rfl, rfl⟩, .inl ⟨rfl, rfl⟩⟩
  | enhancedVolatileConfig =>
    simp only [State.writeRegister]
    split_ifs
    · exact ⟨rfl, .inl ⟨rfl, rfl⟩, .inl ⟨rfl, rfl⟩⟩
    · exact ⟨rfl, .inl ⟨rfl, rfl⟩, .inr rfl⟩

/-- A data byte that is not answered with one of the two registers (R93). -/
theorem dataByte_cosmeticStep (b : Byte) (hv : s.op.kind ≠ .readRegister .volatileConfig)
    (he : s.op.kind ≠ .readRegister .enhancedVolatileConfig) :
    CosmeticStep s vcr evcr (dataByte s b) (dataByte (s.withCosmetic vcr evcr) b) := by
  have hkind : (s.withCosmetic vcr evcr).op.kind = s.op.kind := rfl
  rw [dataByte, dataByte, hkind]
  cases hk : s.op.kind with
  | read =>
    refine .of_commutes (f := (readByte · b)) fun v e => ?_
    rw [readByte_eq, readByte_eq]
    rfl
  | identify =>
    refine .of_commutes (f := (identifyByte · b)) fun v e => ?_
    rw [identifyByte_eq, identifyByte_eq]
    rfl
  | program => exact .of_commutes (f := (programByte · b)) fun v e => programByte_withCosmetic s v e b
  | readRegister r =>
    refine .of_commutes (f := (readRegisterByte r · b)) fun v e =>
      readRegisterByte_withCosmetic s v e b ?_ ?_
    · rintro rfl
      exact hv hk
    · rintro rfl
      exact he hk
  | writeRegister r =>
    exact (writeRegister_cosmeticStep s vcr evcr r s.op.bytesHandledInDataPhase b).answered
  | none | erase => exact .of_commutes (f := (·.respondUnspec.countDataByte)) fun _ _ => rfl

/-! ### The step -/

theorem byteEffect_cosmeticStep (b : Byte) (h : ¬s.readsCosmetic) :
    CosmeticStep s vcr evcr (byteEffect b s) (byteEffect b (s.withCosmetic vcr evcr)) := by
  have hfsm : (s.withCosmetic vcr evcr).fsm = s.fsm := rfl
  rw [byteEffect, byteEffect, hfsm]
  cases hf : s.fsm with
  | idle => exact .of_commutes fun v e => opcodeEffect_withCosmetic s v e b
  | accAddrData | accAddrNoData =>
    exact .of_commutes (f := (addressByte · b)) fun v e => addressByte_withCosmetic s v e b
  | inDataPhase =>
    exact dataByte_cosmeticStep s vcr evcr b (fun hk => h ⟨hf, .inl hk⟩) fun hk => h ⟨hf, .inr hk⟩
  | noDataReady => exact .of_commutes (f := State.respondUnspec) fun _ _ => rfl

variable {s}

/-- A step that answers neither register goes the same way with other values in them: `END` commutes
with the change, `RESET` overwrites both. -/
theorem step_cosmeticStep (hstep : step s = .next t)
    (h : ¬((∃ b rest, s.link = .byte b :: rest) ∧ s.readsCosmetic)) :
    ∃ u, step (s.withCosmetic vcr evcr) = .next u ∧ CosmeticStep s vcr evcr t u := by
  obtain ⟨hl, rfl⟩ | ⟨b, rest, hl, rfl⟩ | ⟨rest, hl, rfl⟩ | ⟨rest, hl, rfl⟩ := step_cases hstep
  · exact ⟨_, step_of_link_nil hl, rfl, .inl ⟨rfl, rfl⟩, .inl ⟨rfl, rfl⟩⟩
  · obtain ⟨alike, hvcr, hevcr⟩ := byteEffect_cosmeticStep { s with link := rest } vcr evcr b
      fun hread => h ⟨⟨b, rest, hl⟩, hread⟩
    exact ⟨_, step_of_link_byte hl, alike, hvcr, hevcr⟩
  · exact ⟨_, step_of_link_end hl, rfl, .inl ⟨rfl, rfl⟩, .inl ⟨rfl, rfl⟩⟩
  · exact ⟨_, step_of_link_reset hl, rfl, .inr rfl, .inr rfl⟩

/-- The step over a data byte of a register read (R150). -/
theorem step_of_readRegister {r : RegisterId} {b : Byte} {rest : List Event}
    (hl : s.link = .byte b :: rest) (hf : s.fsm = .inDataPhase) (hk : s.op.kind = .readRegister r) :
    step s = .next { s with
      link := rest
      op := { s.op with bytesHandledInDataPhase := s.op.bytesHandledInDataPhase + 1 }
      responses := s.responses ++ [s.registerByte r s.op.bytesHandledInDataPhase] } := by
  rw [step_of_link_byte hl, byteEffect_of_data (s := { s with link := rest }) b hf, dataByte, hk]
  cases r <;> rfl

end Cosmetic

/-- Settles O52: a data byte of RDVCR or RDVECR is written out on both sides; any other event is
`step_cosmeticStep`, in which the responses are among what is alike. -/
theorem cosmeticRegistersInfluenceNothing : Obligations.CosmeticRegistersInfluenceNothing := by
  intro s t vcr evcr h
  by_cases hread : (∃ b rest, s.link = .byte b :: rest) ∧ s.readsCosmetic
  · have ⟨⟨b, rest, hl⟩, hf, hk⟩ := hread
    obtain ⟨r, hr⟩ : ∃ r, s.op.kind = .readRegister r := hk.elim (⟨_, ·⟩) (⟨_, ·⟩)
    obtain rfl := Host.Outcome.next.inj ((step_of_readRegister hl hf hr).symm.trans h)
    refine ⟨_, step_of_readRegister (s := s.withCosmetic vcr evcr) hl hf hr, rfl, .inl ⟨rfl, rfl⟩,
      .inl ⟨rfl, rfl⟩, fun _ _ _ _ => ⟨fun hv => ?_, fun he => ?_⟩, (absurd hread ·)⟩
    · obtain rfl := OpKind.readRegister.inj (hr.symm.trans hv)
      exact ⟨rfl, rfl⟩
    · obtain rfl := OpKind.readRegister.inj (hr.symm.trans he)
      exact ⟨rfl, rfl⟩
  · obtain ⟨u, hu, alike, hvcr, hevcr⟩ := step_cosmeticStep vcr evcr h hread
    exact ⟨u, hu, congrArg (fun v : State => { v with responses := t.responses }) alike, hvcr, hevcr,
      fun b rest hl hf => ⟨fun hk => absurd ⟨⟨b, rest, hl⟩, hf, .inl hk⟩ hread,
        fun hk => absurd ⟨⟨b, rest, hl⟩, hf, .inr hk⟩ hread⟩,
      fun _ => (congrArg State.responses alike :)⟩

end Sys2Proof.Machine

/-! # The register writes (spec/47_register_write.md R165 to R178)

Writing a register and answering the bytes of the transaction are independent of each other: a data byte
in an open register write is the write of `State.writeRegister` on the state without that transaction, and
one more answered byte (`writeRegisterByte_inRegisterWrite`). A transaction is then the bytes the register
takes, one by one, and the rejection of all that follow. -/

namespace Sys2Proof.Machine

section RegisterWrites

variable {s : State} {r : RegisterId}

theorem exec_wrsr (data : List Byte) (s : State) :
    exec (.wrsr data) s = .next (runWriteRegister .status data s) := rfl

theorem exec_wrvcr (data : List Byte) (s : State) :
    exec (.wrvcr data) s = .next (runWriteRegister .volatileConfig data s) := rfl

theorem exec_wrnvcr (data : List Byte) (s : State) :
    exec (.wrnvcr data) s = .next (runWriteRegister .nonVolatileConfig data s) := rfl

theorem exec_wrvecr (data : List Byte) (s : State) :
    exec (.wrvecr data) s = .next (runWriteRegister .enhancedVolatileConfig data s) := rfl

/-! ## An open register write -/

/-- `s` with a write of `r` open in which the opcode byte and `n` data bytes have been answered (R76,
R93), whatever these bytes wrote or logged. -/
def State.inRegisterWrite (s : State) (r : RegisterId) (n : Nat) : State :=
  { s with
    fsm := .inDataPhase, opcodeSeen := true, op := operationWithData (.writeRegister r) n
    responses := s.responses ++ s.unspecifiedRun (1 + n), freeIndex := s.freeIndex + (1 + n) }

theorem beginOperation_writeRegister (r : RegisterId) (s : State) :
    s.beginOperation (.writeRegister r) = s.inRegisterWrite r 0 := by
  rw [State.inRegisterWrite, unspecifiedRun_one]
  rfl

/-- The answers to `m` more data bytes. -/
theorem inRegisterWrite_add (r : RegisterId) (n m : Nat) (s : State) :
    { s.inRegisterWrite r n with
      op := operationWithData (.writeRegister r) (n + m)
      responses := (s.inRegisterWrite r n).responses ++ (s.inRegisterWrite r n).unspecifiedRun m
      freeIndex := (s.inRegisterWrite r n).freeIndex + m } = s.inRegisterWrite r (n + m) := by
  have hrun : s.unspecifiedRun (1 + (n + m))
      = s.unspecifiedRun (1 + n) ++ (s.inRegisterWrite r n).unspecifiedRun m := by
    rw [← Nat.add_assoc]
    exact unspecifiedRun_add (s := s) (t := s.inRegisterWrite r n) rfl rfl
  have hfree : s.freeIndex + (1 + (n + m)) = s.freeIndex + (1 + n) + m := by omega
  rw [State.inRegisterWrite.eq_def s r (n + m), hrun, hfree, ← List.append_assoc]
  rfl

theorem inRegisterWrite_answered (r : RegisterId) (n : Nat) (s : State) :
    (s.inRegisterWrite r n).respondUnspec.countDataByte = s.inRegisterWrite r (n + 1) := by
  rw [respondUnspec_eq, ← inRegisterWrite_add r n 1]
  rfl

theorem writeRegister_inRegisterWrite (q : RegisterId) (i n : Nat) (b : Byte) (s : State) :
    (s.inRegisterWrite r n).writeRegister q i b = (s.writeRegister q i b).inRegisterWrite r n := by
  have hwel : (s.inRegisterWrite r n).wel = s.wel := rfl
  cases q with
  | status | flagStatus => rfl
  | volatileConfig | nonVolatileConfig | enhancedVolatileConfig =>
    simp only [State.writeRegister, hwel]
    split_ifs <;> rfl

/-- A data byte writes the register, or logs its rejection, and is answered (R165). -/
theorem writeRegisterByte_inRegisterWrite (r : RegisterId) (n : Nat) (b : Byte) (s : State) :
    writeRegisterByte r (s.inRegisterWrite r n) b
      = (s.writeRegister r n b).inRegisterWrite r (n + 1) := by
  have hcount : (s.inRegisterWrite r n).op.bytesHandledInDataPhase = n := rfl
  rw [writeRegisterByte, hcount, writeRegister_inRegisterWrite, inRegisterWrite_answered]

theorem runWriteRegister_nil (r : RegisterId) (s : State) :
    runWriteRegister r [] s = s.inRegisterWrite r 0 :=
  beginOperation_writeRegister r s

theorem runWriteRegister_singleton (r : RegisterId) (b : Byte) (s : State) :
    runWriteRegister r [b] s = (s.writeRegister r 0 b).inRegisterWrite r 1 := by
  rw [runWriteRegister, beginOperation_writeRegister, List.foldl_cons, List.foldl_nil,
    writeRegisterByte_inRegisterWrite]

theorem runWriteRegister_pair (r : RegisterId) (b c : Byte) (s : State) :
    runWriteRegister r [b, c] s
      = ((s.writeRegister r 0 b).writeRegister r 1 c).inRegisterWrite r 2 := by
  have hsplit : runWriteRegister r [b, c] s = writeRegisterByte r (runWriteRegister r [b] s) c := rfl
  rw [hsplit, runWriteRegister_singleton, writeRegisterByte_inRegisterWrite]

/-! ## Rejected bytes -/

/-- From byte `n` on every byte is rejected, byte `b` at index `i` as `f i b`. -/
theorem foldl_inRegisterWrite_rejected {f : Nat → Byte → Anomaly} {n : Nat} (bytes : List Byte)
    (hr : ∀ t : State, t.wel = s.wel → ∀ i b, n ≤ i → t.writeRegister r i b = t.emit (f i b)) :
    bytes.foldl (writeRegisterByte r) (s.inRegisterWrite r n)
      = State.inRegisterWrite { s with log := s.log ++ (bytes.zipIdx n).map fun (b, i) => f i b } r
          (n + bytes.length) := by
  rw [foldl_writeRegisterByte_rejected bytes (s.inRegisterWrite r n) hr, ← inRegisterWrite_add r n]
  rfl

/-- A write that rejects every byte by its value alone. -/
theorem runWriteRegister_rejected {f : Byte → Anomaly} (data : List Byte)
    (hr : ∀ t : State, t.wel = s.wel → ∀ i b, t.writeRegister r i b = t.emit (f b)) :
    runWriteRegister r data s
      = State.inRegisterWrite { s with log := s.log ++ data.map f } r data.length := by
  have hlog : (data.zipIdx 0).map (fun (b, _) => f b) = data.map f := by
    exact (List.map_map (l := data.zipIdx)).symm.trans (congrArg _ (List.zipIdx_map_fst 0 data))
  rw [runWriteRegister, beginOperation_writeRegister,
    foldl_inRegisterWrite_rejected data fun t ht i b _ => hr t ht i b, hlog, Nat.zero_add]

theorem extraByteAnomalies_add (r : RegisterId) (width n : Nat) :
    extraByteAnomalies r width (width + n) = (List.range' width n).map (.regByteCount r) := by
  induction n with
  | zero =>
    exact List.flatMap_eq_nil_iff.mpr fun i hi => if_pos (List.mem_range.mp hi)
  | succ n ih =>
    rw [extraByteAnomalies] at ih ⊢
    rw [← Nat.add_assoc, List.range_succ, List.flatMap_append, ih, List.range'_1_concat,
      List.map_append]
    simp

/-- A write in which every byte after those of `taken` is rejected for its number (R168). -/
theorem runWriteRegister_extra {taken : List Byte} {u : State} (extra : List Byte)
    (htaken : runWriteRegister r taken s = u.inRegisterWrite r taken.length)
    (hr : ∀ t : State, t.wel = u.wel → ∀ i b, taken.length ≤ i →
      t.writeRegister r i b = t.emit (.regByteCount r i)) :
    runWriteRegister r (taken ++ extra) s = State.inRegisterWrite
      { u with log := u.log ++ extraByteAnomalies r taken.length (taken ++ extra).length } r
      (taken ++ extra).length := by
  have hlog : (extra.zipIdx taken.length).map (fun (_, i) => Anomaly.regByteCount r i)
      = extraByteAnomalies r taken.length (taken.length + extra.length) := by
    rw [extraByteAnomalies_add, ← List.zipIdx_map_snd taken.length extra, List.map_map,
      Function.comp_def]
  rw [runWriteRegister, List.foldl_append, ← runWriteRegister, htaken,
    foldl_inRegisterWrite_rejected extra hr, hlog, List.length_append]

/-! ## The registers, byte by byte -/

/-- With the latch clear the two registers behind it reject every byte (R165, R167). -/
theorem writeRegister_of_disabled (hr : r = .volatileConfig ∨ r = .nonVolatileConfig) (i : Nat)
    (b : Byte) (hw : s.wel = false) : s.writeRegister r i b = s.emit (.permRegWrite r b) := by
  obtain rfl | rfl := hr <;> simp [State.writeRegister, hw]

/-- A register that can be written rejects the bytes beyond its width; EVCR does not look at the latch
(R167, R168). -/
theorem writeRegister_extra {i : Nat} (b : Byte) (hr : registerWritable r = true)
    (hw : r = .enhancedVolatileConfig ∨ s.wel = true) (hi : registerBytes r ≤ i) :
    s.writeRegister r i b = s.emit (.regByteCount r i) := by
  cases r with
  | status | flagStatus => cases hr
  | enhancedVolatileConfig => exact if_pos hi
  | volatileConfig | nonVolatileConfig =>
    have hset : s.wel = true := hw.resolve_left nofun
    rw [State.writeRegister, hset]
    exact if_pos hi

theorem writeRegister_volatileConfig_first (b : Byte) (hw : s.wel = true) :
    s.writeRegister .volatileConfig 0 b = { s with vcr := b } := by
  simp [State.writeRegister, hw]

theorem writeRegister_nonVolatileConfig_low (b : Byte) (hw : s.wel = true) :
    s.writeRegister .nonVolatileConfig 0 b = { s with nvcr := withLowByte s.nvcr b } := by
  simp [State.writeRegister, hw]

theorem writeRegister_nonVolatileConfig_high (b : Byte) (hw : s.wel = true) :
    s.writeRegister .nonVolatileConfig 1 b = { s with nvcr := withHighByte s.nvcr b } := by
  simp [State.writeRegister, hw]

/-! ## The two bytes of NVCR as numbers -/

theorem append_eq_ofNat (high low : Byte) :
    high ++ low = BitVec.ofNat 16 (high.toNat * 256 + low.toNat) := by
  rw [← append_toNat, BitVec.ofNat_toNat, BitVec.setWidth_eq]

theorem withLowByte_eq_ofNat (v : HalfWord) (low : Byte) :
    withLowByte v low = BitVec.ofNat 16 (v.toNat / 256 * 256 + low.toNat) := by
  rw [withLowByte_eq, append_eq_ofNat, highByte_toNat]

/-- Both bytes written, nothing of the old value is left (R169). -/
theorem withHighByte_withLowByte (v : HalfWord) (high low : Byte) :
    withHighByte (withLowByte v low) high = BitVec.ofNat 16 (high.toNat * 256 + low.toNat) := by
  rw [withHighByte_eq, withLowByte_eq, lowByte_append, append_eq_ofNat]

/-! ## The transactions -/

theorem runWriteRegister_of_disabled (hr : r = .volatileConfig ∨ r = .nonVolatileConfig)
    (data : List Byte) (hw : s.wel = false) :
    runWriteRegister r data s
      = State.inRegisterWrite { s with log := s.log ++ data.map (.permRegWrite r) } r data.length :=
  runWriteRegister_rejected data fun _ ht i b => writeRegister_of_disabled hr i b (ht.trans hw)

theorem runWriteRegister_volatileConfig_of_enabled (data : List Byte) (hw : s.wel = true) :
    runWriteRegister .volatileConfig data s = State.inRegisterWrite
      { s with
        vcr := data.headD s.vcr
        log := s.log ++ extraByteAnomalies .volatileConfig 1 data.length } .volatileConfig
      data.length := by
  cases data with
  | nil => simp [runWriteRegister_nil, extraByteAnomalies]
  | cons b extra =>
    have htaken : runWriteRegister .volatileConfig [b] s
        = State.inRegisterWrite { s with vcr := b } .volatileConfig 1 := by
      rw [runWriteRegister_singleton, writeRegister_volatileConfig_first b hw]
    exact runWriteRegister_extra extra htaken
      fun _ ht _ b hi => writeRegister_extra b rfl (.inr (ht.trans hw)) hi

theorem runWriteRegister_enhancedVolatileConfig (data : List Byte) (s : State) :
    runWriteRegister .enhancedVolatileConfig data s = State.inRegisterWrite
      { s with
        evcr := data.headD s.evcr
        log := s.log ++ extraByteAnomalies .enhancedVolatileConfig 1 data.length }
      .enhancedVolatileConfig data.length := by
  cases data with
  | nil => simp [runWriteRegister_nil, extraByteAnomalies]
  | cons b extra =>
    exact runWriteRegister_extra extra (runWriteRegister_singleton _ b s)
      fun _ _ _ b hi => writeRegister_extra b rfl (.inl rfl) hi

/-- The low byte is written at once, the old high byte kept (R169). -/
theorem runWriteRegister_nonVolatileConfig_low (low : Byte) (hw : s.wel = true) :
    runWriteRegister .nonVolatileConfig [low] s = State.inRegisterWrite
      { s with nvcr := withLowByte s.nvcr low } .nonVolatileConfig 1 := by
  rw [runWriteRegister_singleton, writeRegister_nonVolatileConfig_low low hw]

theorem runWriteRegister_nonVolatileConfig_low_high (low high : Byte) (extra : List Byte)
    (hw : s.wel = true) :
    runWriteRegister .nonVolatileConfig (low :: high :: extra) s = State.inRegisterWrite
      { s with
        nvcr := withHighByte (withLowByte s.nvcr low) high
        log := s.log ++ extraByteAnomalies .nonVolatileConfig 2 (low :: high :: extra).length }
      .nonVolatileConfig (low :: high :: extra).length := by
  have htaken : runWriteRegister .nonVolatileConfig [low, high] s = State.inRegisterWrite
      { s with nvcr := withHighByte (withLowByte s.nvcr low) high } .nonVolatileConfig 2 := by
    rw [runWriteRegister_pair, writeRegister_nonVolatileConfig_low low hw,
      writeRegister_nonVolatileConfig_high high (by exact hw)]
  exact runWriteRegister_extra extra htaken
    fun _ ht _ b hi => writeRegister_extra b rfl (.inr (ht.trans hw)) hi

end RegisterWrites

/-- Settles O37: SR rejects every byte by its value alone. -/
theorem statusWriteIsRejected : Obligations.StatusWriteIsRejected := by
  intro s data
  rw [exec_wrsr, runWriteRegister_rejected (f := .regNotWritable .status) data fun _ _ _ _ => rfl]
  rfl

/-- Settles O38: by the latch. -/
theorem volatileWriteTakesOneByte : Obligations.VolatileWriteTakesOneByte := by
  intro s data
  rw [exec_wrvcr]
  cases hw : s.wel with
  | false =>
    rw [runWriteRegister_of_disabled (.inl rfl) data hw, hw]
    rfl
  | true =>
    rw [runWriteRegister_volatileConfig_of_enabled data hw, hw]
    rfl

/-- Settles O39: by the latch, and with it set by how many of the two bytes are sent. -/
theorem nonVolatileWriteTakesTwoBytes : Obligations.NonVolatileWriteTakesTwoBytes := by
  intro s data
  rw [exec_wrnvcr]
  cases hw : s.wel with
  | false =>
    rw [runWriteRegister_of_disabled (.inr rfl) data hw, hw]
    rfl
  | true =>
    match data with
    | [] => simp [runWriteRegister_nil, extraByteAnomalies, State.inRegisterWrite, hw]
    | [low] =>
      have hnone : extraByteAnomalies .nonVolatileConfig 2 [low].length = [] := rfl
      rw [runWriteRegister_nonVolatileConfig_low low hw, withLowByte_eq_ofNat]
      simp only [hw, reduceIte, hnone, List.append_nil]
      rfl
    | low :: high :: extra =>
      rw [runWriteRegister_nonVolatileConfig_low_high low high extra hw, hw,
        withHighByte_withLowByte]
      rfl

/-- Settles O40: the latch is not looked at. -/
theorem enhancedWriteNeedsNoLatch : Obligations.EnhancedWriteNeedsNoLatch := by
  intro s data
  rw [exec_wrvecr, runWriteRegister_enhancedVolatileConfig]
  rfl

/-- The step over a data byte of a register write (R165). -/
theorem step_of_writeRegister {s : State} {r : RegisterId} {b : Byte} {rest : List Event}
    (hl : s.link = .byte b :: rest) (hf : s.fsm = .inDataPhase) (hk : s.op.kind = .writeRegister r) :
    step s = .next (writeRegisterByte r { s with link := rest } b) := by
  rw [step_of_link_byte hl, byteEffect_of_data (s := { s with link := rest }) b hf, dataByte, hk]

/-- A data byte for SR or FSR is counted, answered and rejected (R166). -/
theorem writeRegisterByte_of_unwritable {r : RegisterId} (hr : r = .status ∨ r = .flagStatus)
    (s : State) (b : Byte) : writeRegisterByte r s b = { s with
      op := { s.op with bytesHandledInDataPhase := s.op.bytesHandledInDataPhase + 1 }
      responses := s.responses ++ s.unspecifiedRun 1
      log := s.log ++ [.regNotWritable r b], freeIndex := s.freeIndex + 1 } := by
  rw [unspecifiedRun_one]
  obtain rfl | rfl := hr <;> rfl

/-- Settles O41: a byte is `writeRegisterByte_of_unwritable`, and `END` clears the latch after a write of
VCR only. -/
theorem unwritableRegisterByteIsLogged : Obligations.UnwritableRegisterByteIsLogged := by
  intro s rest r hr hf hk
  refine ⟨fun b hl => ?_, fun hl => ⟨_, step_of_link_end hl, ?_⟩⟩
  · rw [step_of_writeRegister hl hf hk, writeRegisterByte_of_unwritable hr]
    rfl
  · have hkeeps : s.op.kind.mutating = false := by
      obtain rfl | rfl := hr <;> rw [hk] <;> rfl
    simp [hkeeps]

/-- Settles O45: the next state of each of the six is written out in full (O37 to O40, O25, O26), and of
what is claimed unchanged it names no field but the instruction's own. -/
theorem registerWriteFrame : Obligations.RegisterWriteFrame := by
  intro s t data i hi h
  simp only [List.mem_cons, List.not_mem_nil, or_false] at hi
  obtain rfl | rfl | rfl | rfl | rfl | rfl := hi
  · obtain rfl := Host.Outcome.next.inj ((statusWriteIsRejected s data).symm.trans h)
    exact ⟨fun _ _ => rfl, fun _ => rfl, fun _ => rfl, fun _ => rfl, rfl, rfl, fun _ => rfl⟩
  · obtain rfl := Host.Outcome.next.inj ((volatileWriteTakesOneByte s data).symm.trans h)
    exact ⟨fun _ _ => rfl, (absurd rfl ·), fun _ => rfl, fun _ => rfl, rfl, rfl, fun _ => rfl⟩
  · obtain rfl := Host.Outcome.next.inj ((nonVolatileWriteTakesTwoBytes s data).symm.trans h)
    exact ⟨fun _ _ => rfl, fun _ => rfl, (absurd rfl ·), fun _ => rfl, rfl, rfl, fun _ => rfl⟩
  · obtain rfl := Host.Outcome.next.inj ((enhancedWriteNeedsNoLatch s data).symm.trans h)
    exact ⟨fun _ _ => rfl, fun _ => rfl, fun _ => rfl, (absurd rfl ·), rfl, rfl, fun _ => rfl⟩
  · obtain rfl := Host.Outcome.next.inj ((wrenSetsTheLatch s).symm.trans h)
    exact ⟨(absurd rfl ·), fun _ => rfl, fun _ => rfl, fun _ => rfl, rfl, rfl, fun _ => rfl⟩
  · obtain rfl := Host.Outcome.next.inj ((wrdiClearsTheLatch s).symm.trans h)
    exact ⟨fun _ => (absurd rfl ·), fun _ => rfl, fun _ => rfl, fun _ => rfl, rfl, rfl, fun _ => rfl⟩

end Sys2Proof.Machine

/-! # The invariants of a reachable state (spec/10_state.md R24, R43, spec/70_reset_and_hazards.md)

They hold at reset and at power-on, and every step keeps them. -/

namespace Sys2Proof.Machine

/-! ## The sequencer's invariants (R24) -/

section Sequencer

variable {s t : State}

/-- The invariants speak of the machine's state and of the operation alone. -/
theorem SequencerInv.congr (h : SequencerInv s) (hfsm : t.fsm = s.fsm) (hop : t.op = s.op) :
    SequencerInv t where
  idle := hfsm ▸ hop ▸ h.idle
  accAddrData := hfsm ▸ hop ▸ h.accAddrData
  accAddrNoData := hfsm ▸ hop ▸ h.accAddrNoData
  inDataPhase := hfsm ▸ hop ▸ h.inDataPhase
  noDataReady := hfsm ▸ hop ▸ h.noDataReady
  counting := hfsm ▸ hop ▸ h.counting
  address := hop ▸ h.address

theorem sequencerInv_of_idle (hfsm : s.fsm = .idle) (hop : s.op = DecodedOperation.empty) :
    SequencerInv s := by
  constructor <;> simp [hfsm, hop, DecodedOperation.empty]

theorem powerOn_sequencerInv (c : Cfg) : SequencerInv (powerOn c) :=
  sequencerInv_of_idle rfl rfl

/-- Outside the data phase no data byte has been counted (R24 item 6). -/
theorem SequencerInv.not_counting (h : SequencerInv s) (hf : s.fsm ≠ .inDataPhase) :
    s.op.bytesHandledInDataPhase = 0 :=
  Nat.eq_zero_of_not_pos fun hpos => hf (h.counting hpos)

/-- In the address phase an address byte is missing (R24 items 2 and 3). -/
theorem SequencerInv.address_incomplete (h : SequencerInv s)
    (hf : s.fsm = .accAddrData ∨ s.fsm = .accAddrNoData) :
    (s.op.addressLength = 3 ∨ s.op.addressLength = 4) ∧
      s.op.addressBytesReceived < s.op.addressLength :=
  hf.elim (fun hf => (h.accAddrData hf).2) fun hf => (h.accAddrNoData hf).2

/-- The opcode byte of an operation establishes the invariants, whatever held before (R76). -/
theorem beginOperation_sequencerInv (s : State) {k : OpKind} (hk : k ≠ .none) :
    SequencerInv (s.beginOperation k) := by
  have haddr := addrLen_three_or_four s
  have hpos : 0 < s.addrLen := by omega
  cases k with
  | none => exact absurd rfl hk
  | read | program | erase =>
    constructor <;> simp [OpKind.firstFsm, OpKind.hasAddress, DecodedOperation.empty, haddr, hpos]
  | identify | readRegister | writeRegister =>
    constructor <;> simp [OpKind.firstFsm, OpKind.hasAddress, DecodedOperation.empty]

theorem opcodeEffect_sequencerInv (b : Byte) (h : SequencerInv s) :
    SequencerInv (opcodeEffect b s) := by
  obtain ⟨fsm, op, wel, logged, he, -, -, ⟨rfl, rfl⟩ | ⟨k, hk, rfl, rfl⟩⟩ := opcodeEffect_frame b s
  · rw [he]
    exact h.congr rfl rfl
  · rw [he]
    exact (beginOperation_sequencerInv s hk).congr rfl rfl

/-- One more address byte is eight more bits of address (R24 item 7, R72). -/
theorem appendAddressByte_lt {acc n : Nat} (b : Byte) (h : acc < 2 ^ (8 * n)) :
    appendAddressByte acc b < 2 ^ (8 * (n + 1)) := by
  have hb : b.toNat < 256 := b.isLt
  have hpow : 2 ^ (8 * (n + 1)) = 2 ^ (8 * n) * 256 := Nat.pow_add 2 (8 * n) 8
  rw [appendAddressByte_eq, hpow]
  omega

/-- An address byte leaves an incomplete address incomplete, or opens the state that the kind of the
operation calls for (R92). -/
theorem addressByte_sequencerInv (b : Byte) (h : SequencerInv s)
    (hf : s.fsm = .accAddrData ∨ s.fsm = .accAddrNoData) : SequencerInv (addressByte s b) := by
  obtain ⟨fsm, store, logged, he, -, -, -, -, hshort, hlast⟩ := addressByte_frame s b
  have hcount : s.op.bytesHandledInDataPhase = 0 :=
    h.not_counting (by rcases hf with hf | hf <;> simp [hf])
  have haddress := appendAddressByte_lt b h.address
  obtain ⟨hlength, hmissing⟩ := h.address_incomplete hf
  rw [he]
  by_cases hc : s.op.addressBytesReceived + 1 = s.op.addressLength
  · obtain ⟨hdata, hready⟩ := hlast hc
    rw [hc] at haddress
    rcases hf with hf | hf
    · obtain ⟨rfl, -⟩ := hdata hf
      have hkind := (h.accAddrData hf).1
      exact {
        idle := by simp
        accAddrData := by simp
        accAddrNoData := by simp
        inDataPhase := fun _ => ⟨hkind.imp_right .inl, hc⟩
        noDataReady := by simp
        counting := fun _ => rfl
        address := by simpa [hc] using haddress }
    · obtain rfl := hready (by simp [hf])
      have hkind := (h.accAddrNoData hf).1
      constructor <;> simp [hc, hcount, haddress, hkind]
  · obtain ⟨rfl, -⟩ := hshort hc
    have hmissing' : s.op.addressBytesReceived + 1 < s.op.addressLength := by omega
    rcases hf with hf | hf
    · have hkind := (h.accAddrData hf).1
      constructor <;> simp [hf, hkind, hlength, hmissing', hcount, haddress]
    · have hkind := (h.accAddrNoData hf).1
      constructor <;> simp [hf, hkind, hlength, hmissing', hcount, haddress]

/-- A data byte moves the count alone, in the one state that counts (R93). -/
theorem dataByte_sequencerInv (b : Byte) (h : SequencerInv s) (hf : s.fsm = .inDataPhase) :
    SequencerInv (dataByte s b) := by
  obtain ⟨store, vcr, nvcr, evcr, answer, logged, freeIndex, he, -⟩ := dataByte_frame s b
  rw [he]
  exact {
    idle := by simp [hf]
    accAddrData := by simp [hf]
    accAddrNoData := by simp [hf]
    inDataPhase := fun _ => h.inDataPhase hf
    noDataReady := by simp [hf]
    counting := fun _ => hf
    address := h.address }

theorem byteEffect_sequencerInv (b : Byte) (h : SequencerInv s) : SequencerInv (byteEffect b s) := by
  cases hf : s.fsm with
  | idle =>
    rw [byteEffect_of_idle b hf]
    exact opcodeEffect_sequencerInv b h
  | accAddrData =>
    rw [byteEffect_of_address b (.inl hf)]
    exact addressByte_sequencerInv b h (.inl hf)
  | accAddrNoData =>
    rw [byteEffect_of_address b (.inr hf)]
    exact addressByte_sequencerInv b h (.inr hf)
  | inDataPhase =>
    rw [byteEffect_of_data b hf]
    exact dataByte_sequencerInv b h hf
  | noDataReady =>
    rw [byteEffect_of_ready b hf]
    exact h.congr rfl rfl

theorem step_preserves_sequencerInv (h : SequencerInv s) (hstep : step s = .next t) :
    SequencerInv t := by
  obtain ⟨-, rfl⟩ | ⟨b, rest, -, rfl⟩ | ⟨rest, -, rfl⟩ | ⟨rest, -, rfl⟩ := step_cases hstep
  · exact h
  · exact byteEffect_sequencerInv b (h.congr rfl rfl)
  · exact sequencerInv_of_idle rfl rfl
  · exact sequencerInv_of_idle rfl rfl

end Sequencer

/-- Settles O12: `END` and `RESET` establish the invariants; a byte keeps them, by the state of the
machine in which it is taken. -/
theorem stepKeepsSequencerInvariants : Obligations.StepKeepsSequencerInvariants :=
  ⟨powerOn_sequencerInv, fun _ _ => step_preserves_sequencerInv⟩

/-! ## The ghost bit (R43) -/

/-- Settles O14: a byte taken in `Idle` sets the bit, one taken elsewhere carries it along, and `END` and
`RESET` return to `Idle`. -/
theorem stepKeepsOpcodeSeen : Obligations.StepKeepsOpcodeSeen := by
  intro s t h hstep
  obtain ⟨-, rfl⟩ | ⟨b, rest, -, rfl⟩ | ⟨rest, -, rfl⟩ | ⟨rest, -, rfl⟩ := step_cases hstep
  · exact h
  · intro _
    rw [(byteEffect_frame b { s with link := rest }).seen]
    by_cases hf : s.fsm = .idle
    · exact if_pos hf
    · exact (if_neg hf).trans (h hf)
  · exact absurd (endTransaction_fsm _)
  · exact absurd (deviceReset_fsm _)

/-- Settles O11: the state after reset is a power-on state, in `Idle`. -/
theorem resetMeetsInvariants : Obligations.ResetMeetsInvariants :=
  ⟨powerOn_sequencerInv Cfg.cautious, powerOn_storeInv Cfg.cautious, absurd rfl⟩

end Sys2Proof.Machine

/-! # The outcome and the outputs of a step (spec/60_exceptions.md R180 to R189)

Every event has a next state; a byte gets one response and at most one anomaly, and so does `END` find at
most one in a reachable state, where the three conditions of R96 exclude each other. -/

namespace Sys2Proof.Machine

/-! ## The outcome -/

/-- Settles O9: a byte by its frame; the other events touch neither the configuration nor the
responses. -/
theorem oneResponsePerByteEvent : Obligations.OneResponsePerByteEvent := by
  intro s t h
  obtain ⟨hl, rfl⟩ | ⟨b, rest, hl, rfl⟩ | ⟨rest, hl, rfl⟩ | ⟨rest, hl, rfl⟩ := step_cases h
  · exact ⟨rfl, by rw [hl, List.tail_nil], by simp [hl], fun _ => rfl⟩
  · have frame := byteEffect_frame b { s with link := rest }
    exact ⟨frame.cfg, by rw [hl]; exact frame.link, fun _ _ _ => frame.answered,
      fun hne => absurd hl (hne b rest)⟩
  · exact ⟨rfl, by rw [hl]; rfl, by simp [hl], fun _ => rfl⟩
  · exact ⟨rfl, by rw [hl]; rfl, by simp [hl], fun _ => rfl⟩

/-- Settles O8: there is a next state for every event, and for a byte it is as in O9. -/
theorem stepAlwaysAnswersNext : Obligations.StepAlwaysAnswersNext := by
  intro s
  obtain ⟨t, ht⟩ := step_total s
  obtain ⟨-, -, hanswered, -⟩ := oneResponsePerByteEvent s t ht
  exact ⟨t, ht, hanswered⟩

/-- Settles O49: a byte by its frame, and `END` touches none of the three. -/
theorem writeDisabledProtectsStoreAndConfig : Obligations.WriteDisabledProtectsStoreAndConfig := by
  intro s t hw hne h
  obtain ⟨-, rfl⟩ | ⟨b, rest, -, rfl⟩ | ⟨rest, -, rfl⟩ | ⟨rest, hl, -⟩ := step_cases h
  · exact ⟨rfl, rfl, rfl⟩
  · exact (byteEffect_frame b { s with link := rest }).disabled hw
  · exact ⟨rfl, rfl, rfl⟩
  · exact absurd hl (hne rest)

/-! ## The outputs -/

/-- With other outputs behind it a byte does the same and puts out the same. -/
theorem byteEffect_outputs (b : Byte) (s : State) (log : List Anomaly) (responses : List Byte) :
    byteEffect b { s with log := log, responses := responses } = { byteEffect b s with
      log := log ++ (byteEffect b s).log.drop s.log.length
      responses := responses ++ (byteEffect b s).responses.drop s.responses.length } := by
  have frame := byteEffect_frame b s
  have hseen : (if s.fsm = .idle then (byteEffect b s).opcodeSeen else s.opcodeSeen)
      = (byteEffect b s).opcodeSeen := by
    rw [frame.seen]
    split_ifs <;> rfl
  refine (byteEffect_unread s.link s.opcodeSeen responses log b s).trans ?_
  rw [State.unreadAfter, hseen, ← frame.link]

/-- Settles O51: the outputs of a byte are `byteEffect_outputs`; `END` appends anomalies that do not
depend on the log, `RESET` and an empty link append nothing. -/
theorem outputsInfluenceNothing : Obligations.OutputsInfluenceNothing := by
  intro s t log responses h
  obtain ⟨hl, rfl⟩ | ⟨b, rest, hl, rfl⟩ | ⟨rest, hl, rfl⟩ | ⟨rest, hl, rfl⟩ := step_cases h
  · simp [step_of_link_nil (s := { t with log := log, responses := responses }) hl]
  · rw [step_of_link_byte (s := { s with log := log, responses := responses }) hl]
    exact congrArg _ (byteEffect_outputs b { s with link := rest } log responses)
  · rw [step_of_link_end (s := { s with log := log, responses := responses }) hl]
    simp [endTransaction, State.endAnomalies]
  · rw [step_of_link_reset (s := { s with log := log, responses := responses }) hl]
    simp [deviceReset]

/-! ## `RESET` and the bytes that only answer -/

/-- Settles O17: the event is `deviceReset`. -/
theorem resetEventRestoresRegisters : Obligations.ResetEventRestoresRegisters :=
  fun _ _ hl => step_of_link_reset hl

/-- Settles O19: the class of the byte leaves it to `undecodedByte`. -/
theorem unrecognizedOpcodeIsLogged : Obligations.UnrecognizedOpcodeIsLogged := by
  intro s b rest hf hl hc
  have heffect : opcodeEffect b { s with link := rest }
      = undecodedByte (.unrecognized b) { s with link := rest } := by
    rw [opcodeEffect, hc]
  rw [step_of_link_byte hl, byteEffect_of_idle (s := { s with link := rest }) b hf, heffect,
    undecodedByte, respondUnspec_eq]
  rfl

/-- Settles O22: the byte is answered and nothing else. -/
theorem byteAfterEraseIsIgnored : Obligations.ByteAfterEraseIsIgnored := by
  intro s b rest hf hl
  rw [step_of_link_byte hl, byteEffect_of_ready (s := { s with link := rest }) b hf, respondUnspec_eq]
  rfl

/-! ## `END` (R95, R96) -/

/-- Settles O23: the operations after which the latch is cleared are those of `OpKind.mutating_iff`. -/
theorem endClosesTheTransaction : Obligations.EndClosesTheTransaction := by
  intro s rest hl
  refine ⟨_, step_of_link_end hl, rfl, ?_, ?_⟩ <;> rw [← OpKind.mutating_iff]
  · exact fun hmutating => if_pos hmutating
  · exact fun hmutating => if_neg hmutating

theorem registerBytes_eq (r : RegisterId) :
    registerBytes r = if r = .nonVolatileConfig then 2 else 1 := by
  cases r <;> rfl

theorem registerWritable_iff (r : RegisterId) : registerWritable r = true ↔
    r = .volatileConfig ∨ r = .nonVolatileConfig ∨ r = .enhancedVolatileConfig := by
  cases r <;> simp [registerWritable]

/-- A register write is open with fewer bytes than its register takes: the last of the three conditions
of R96. -/
def State.shortWrite (s : State) (r : RegisterId) : Prop :=
  s.op.kind = .writeRegister r ∧ registerWritable r = true ∧
    s.op.bytesHandledInDataPhase < registerBytes r

section EndAnomalies

variable {s : State} {r : RegisterId}

/-- A register write is in its data phase from its opcode byte on (R24). -/
theorem SequencerInv.fsm_of_writeRegister (h : SequencerInv s) (hk : s.op.kind = .writeRegister r) :
    s.fsm = .inDataPhase := by
  cases hf : s.fsm with
  | idle => cases hk.symm.trans (congrArg DecodedOperation.kind (h.idle hf))
  | accAddrData =>
    obtain ⟨hread | hprogram, -⟩ := h.accAddrData hf
    · cases hk.symm.trans hread
    · cases hk.symm.trans hprogram
  | accAddrNoData =>
    obtain ⟨⟨g, herase⟩, -⟩ := h.accAddrNoData hf
    cases hk.symm.trans herase
  | inDataPhase => rfl
  | noDataReady =>
    obtain ⟨⟨g, herase⟩, -⟩ := h.noDataReady hf
    cases hk.symm.trans herase

theorem endAnomalies_eq_nil (hf : ¬(s.fsm = .accAddrData ∨ s.fsm = .accAddrNoData))
    (hs : s.opcodeSeen = true) (hw : ∀ r, ¬s.shortWrite r) : s.endAnomalies = [] := by
  cases hk : s.op.kind with
  | writeRegister r =>
    have hcount : ¬(registerWritable r = true ∧ s.op.bytesHandledInDataPhase < registerBytes r) :=
      fun ⟨hwritable, hlt⟩ => hw r ⟨hk, hwritable, hlt⟩
    simp only [State.endAnomalies, hk, hf, hs, hcount, reduceIte, List.append_nil]
  | none | read | identify | program | erase | readRegister => simp [State.endAnomalies, hk, hf, hs]

/-! In a reachable state the three conditions exclude each other. -/

variable (h : SequencerInv s) (hseen : OpcodeSeenInv s)
include h hseen

theorem endAnomalies_of_address (hf : s.fsm = .accAddrData ∨ s.fsm = .accAddrNoData) :
    s.endAnomalies = [.endMidAddress s.op.kind s.op.addressBytesReceived s.op.addressLength] := by
  have hs : s.opcodeSeen = true := hseen (by rcases hf with hf | hf <;> simp [hf])
  cases hk : s.op.kind with
  | writeRegister r => simp [h.fsm_of_writeRegister hk] at hf
  | none | read | identify | program | erase | readRegister => simp [State.endAnomalies, hk, hf, hs]

theorem endAnomalies_of_unseen (hu : s.opcodeSeen = false) : s.endAnomalies = [.endNoOpcode] := by
  have hf : s.fsm = .idle := by
    by_contra hf
    exact absurd (hseen hf) (by simp [hu])
  simp [State.endAnomalies, hf, hu, h.idle hf, DecodedOperation.empty]

theorem endAnomalies_of_shortWrite (hw : s.shortWrite r) :
    s.endAnomalies = [.regByteCount r s.op.bytesHandledInDataPhase] := by
  obtain ⟨hk, hwritable, hlt⟩ := hw
  have hf := h.fsm_of_writeRegister hk
  have hs : s.opcodeSeen = true := hseen (by simp [hf])
  simp [State.endAnomalies, hf, hs, hk, hwritable, hlt]

theorem endAnomalies_length_le_one : s.endAnomalies.length ≤ 1 := by
  by_cases hf : s.fsm = .accAddrData ∨ s.fsm = .accAddrNoData
  · rw [endAnomalies_of_address h hseen hf, List.length_singleton]
  cases hs : s.opcodeSeen with
  | false => rw [endAnomalies_of_unseen h hseen hs, List.length_singleton]
  | true =>
    by_cases hw : ∃ r, s.shortWrite r
    · obtain ⟨r, hr⟩ := hw
      rw [endAnomalies_of_shortWrite h hseen hr, List.length_singleton]
    · rw [endAnomalies_eq_nil hf hs (not_exists.mp hw)]
      exact Nat.zero_le 1

end EndAnomalies

/-- Settles O24: the three conditions and the absence of all of them, each with what `END` finds. -/
theorem endLogsWhatItFinds : Obligations.EndLogsWhatItFinds := by
  intro s t rest h hseen hl hstep
  have hlog : t.log = s.log ++ s.endAnomalies := by
    obtain rfl := Host.Outcome.next.inj ((step_of_link_end hl).symm.trans hstep)
    rfl
  rw [hlog]
  refine ⟨fun hf => ?_, fun hu => ?_, fun r hk hr hlt => ?_, fun hdata hno hs hw => ?_⟩
  · rw [endAnomalies_of_address h hseen hf]
  · rw [endAnomalies_of_unseen h hseen hu]
  · rw [← registerWritable_iff] at hr
    rw [← registerBytes_eq] at hlt
    rw [endAnomalies_of_shortWrite h hseen ⟨hk, hr, hlt⟩]
  · have hnone : ∀ r, ¬s.shortWrite r := by
      rintro r ⟨hk, hwritable, hlt⟩
      rw [registerBytes_eq] at hlt
      obtain rfl | rfl | hle := hw r hk
      · cases hwritable
      · cases hwritable
      · exact Nat.not_lt.mpr hle hlt
    rw [endAnomalies_eq_nil (not_or.mpr ⟨hdata, hno⟩) hs hnone, List.append_nil]

/-- Settles O10: a byte by its frame, `END` by the conditions of R96 excluding each other. -/
theorem atMostOneAnomalyPerStep : Obligations.AtMostOneAnomalyPerStep := by
  intro s t h hseen hstep
  obtain ⟨-, rfl⟩ | ⟨b, rest, -, rfl⟩ | ⟨rest, -, rfl⟩ | ⟨rest, -, rfl⟩ := step_cases hstep
  · exact ⟨[], (List.append_nil _).symm, Nat.zero_le 1⟩
  · exact (byteEffect_frame b { s with link := rest }).logged
  · exact ⟨s.endAnomalies, rfl, endAnomalies_length_le_one h hseen⟩
  · exact ⟨[], (List.append_nil _).symm, Nat.zero_le 1⟩

end Sys2Proof.Machine

/-! # The opcode table, the views, the canonical store and the die erase (spec/10_state.md R32, R34, R41,
spec/30_encoding.md R78, spec/45_erase.md R144) -/

namespace Sys2Proof.Machine

/-! ## The die erase (R144) -/

/-- Settles O32: the run of addresses that a die erase fills is the whole store, so it always fits. -/
theorem dieEraseFillsTheStore : Obligations.DieEraseFillsTheStore := by
  intro s address hl hw
  have hfits : eraseBase s.cfg (addressValue address) .die + eraseSize s.cfg .die ≤ s.cfg.capacity :=
    (Nat.zero_add _).le
  rw [exec_of_erase (.inr ⟨rfl, rfl⟩), runErase_of_fits hl hw hfits]
  refine ⟨_, rfl, rfl, fun a ha => Memory.read_fill_blank.trans (if_pos ⟨Nat.zero_le a, ?_⟩)⟩
  exact ha.trans_le (Nat.zero_add _).ge

/-! ## The views (R32, R34) -/

/-- One bit, shifted to place `n` of a byte. -/
theorem getLsbD_ofBool_shiftLeft (p : Bool) {k : Nat} (n : Nat) (hk : k < 8) :
    ((BitVec.ofBool p).zeroExtend 8 <<< n).getLsbD k = (decide (k = n) && p) := by
  have hplace : (!decide (k < n) && (decide (k - n < 8) && decide (k - n = 0))) = decide (k = n) := by
    rw [Bool.eq_iff_iff]
    simp only [Bool.and_eq_true, Bool.not_eq_true', decide_eq_true_eq, decide_eq_false_iff_not]
    omega
  simp only [BitVec.truncate_eq_setWidth, BitVec.getLsbD_shiftLeft, BitVec.getLsbD_setWidth,
    BitVec.getLsbD_ofBool, hk, decide_true, Bool.true_and, ← hplace, Bool.and_assoc]

/-- Settles O46: SR is the latch as one bit, shifted to its place. -/
theorem statusRegisterShowsTheLatch : Obligations.StatusRegisterShowsTheLatch :=
  fun s _ hk => getLsbD_ofBool_shiftLeft s.wel s.cfg.welBit hk

/-- FSR is `FSR_BASE` with its bit for the mode replaced by the negation of the bit of NVCR (R31, R34). -/
theorem flagStatusRegister_eq (s : State) : s.flagStatusRegister =
    (s.cfg.fsrBase &&& ~~~((BitVec.ofBool true).zeroExtend 8 <<< s.cfg.fsrAddr4Bit.val)) |||
      (BitVec.ofBool (!s.nvcr.getLsbD s.cfg.nvcrAddr3Bit)).zeroExtend 8
        <<< s.cfg.fsrAddr4Bit.val := by
  unfold State.flagStatusRegister State.addrLen
  cases s.nvcr.getLsbD s.cfg.nvcrAddr3Bit <;> rfl

/-- Settles O47: the replaced bit is one bit, shifted to its place, and so is its mask. -/
theorem flagStatusShowsTheAddressingMode : Obligations.FlagStatusShowsTheAddressingMode := by
  intro s k hk
  rw [flagStatusRegister_eq, BitVec.getLsbD_or, BitVec.getLsbD_and, BitVec.getLsbD_not,
    getLsbD_ofBool_shiftLeft _ _ hk, getLsbD_ofBool_shiftLeft _ _ hk]
  by_cases hplace : k = s.cfg.fsrAddr4Bit.val <;> simp [hk, hplace]

/-! ## The canonical store -/

/-- The cells of a canonical store are the addresses that read otherwise than as erased, each with the
byte it reads. -/
theorem Memory.mem_iff_read {blank : Byte} {capacity : Nat} {m : Memory}
    (hm : Memory.wf blank capacity m) (c : Host.Cell) :
    c ∈ m ↔ Memory.read blank m c.1 = c.2 ∧ c.2 ≠ blank := by
  obtain ⟨hsorted, hcells⟩ := hm
  obtain ⟨x, v⟩ := c
  induction m with
  | nil => simp [Memory.read, eq_comm]
  | cons d m ih =>
    obtain ⟨a, w⟩ := d
    obtain ⟨hlt, hsorted⟩ := List.pairwise_cons.mp hsorted
    by_cases hx : x = a
    · subst x
      have hnot : (a, v) ∉ m := fun h => Nat.lt_irrefl a (hlt _ h)
      have hw : w ≠ blank := (hcells (a, w) List.mem_cons_self).1
      simp only [List.mem_cons, hnot, Prod.mk.injEq, Memory.read, true_and, or_false, reduceIte]
      exact ⟨fun h => ⟨h.symm, h ▸ hw⟩, fun h => h.1.symm⟩
    · have hrest := ih hsorted fun e he => hcells e (List.mem_cons_of_mem _ he)
      simpa [Memory.read, hx] using hrest

/-- No address has two cells in a canonical store. -/
theorem Memory.nodup_of_wf {blank : Byte} {capacity : Nat} {m : Memory}
    (hm : Memory.wf blank capacity m) : m.Nodup :=
  hm.1.imp fun hlt heq => Nat.ne_of_lt hlt (congrArg Prod.fst heq)

/-- Settles O15: both stores have the cells that the reads name, in rising order. -/
theorem canonicalStoresAreDeterminedByReads : Obligations.CanonicalStoresAreDeterminedByReads := by
  intro blank capacity m n hm hn hread
  have hperm : m.Perm n := by
    rw [List.perm_ext_iff_of_nodup (Memory.nodup_of_wf hm) (Memory.nodup_of_wf hn)]
    intro c
    rw [Memory.mem_iff_read hm, Memory.mem_iff_read hn, hread]
  exact hperm.eq_of_pairwise (fun _ _ _ _ h h' => absurd h (Nat.lt_asymm h')) hm.1 hn.1

/-! ## The opcode table (R78) -/

theorem opcode_mem_tableRows (i : Instr) : i.opcode ∈ tableRows.map Instr.opcode := by
  cases i <;> simp [tableRows, Instr.opcode]

theorem opClass_ne_unrecognized (i : Instr) : i.opClass ≠ .unrecognized := by
  cases i <;> simp [Instr.opClass]

/-- The bytes the default map binds are the opcode bytes of the 27 rows (R78, R80). -/
theorem opClassOf_default_ne_unrecognized_iff {b : Byte} :
    opClassOf defaultOpcodeMap b ≠ .unrecognized ↔ b ∈ tableRows.map Instr.opcode := by
  constructor
  · intro h
    obtain ⟨i, rfl⟩ := exists_opcode_eq_of_opClassOf_ne_unrecognized h
    exact opcode_mem_tableRows i
  · intro h
    obtain ⟨i, -, rfl⟩ := List.mem_map.mp h
    rw [boundBy_defaultOpcodeMap i]
    exact opClass_ne_unrecognized i

/-- The numbers of the bound bytes are those of the 27 rows, which are distinct. -/
theorem bound_numbers_perm :
    ((List.range 256).filter fun n =>
        !(opClassOf defaultOpcodeMap (BitVec.ofNat 8 n) == .unrecognized)).Perm
      ((tableRows.map Instr.opcode).map BitVec.toNat) := by
  rw [List.perm_ext_iff_of_nodup (List.nodup_range.filter _) (by decide)]
  intro n
  simp only [List.mem_filter, List.mem_range, Bool.not_eq_true', beq_eq_false_iff_ne,
    opClassOf_default_ne_unrecognized_iff]
  rw [List.mem_map (f := BitVec.toNat)]
  constructor
  · exact fun ⟨hlt, hmem⟩ => ⟨_, hmem, Nat.mod_eq_of_lt hlt⟩
  · rintro ⟨b, hmem, rfl⟩
    exact ⟨b.isLt, by rwa [BitVec.ofNat_toNat, BitVec.setWidth_eq]⟩

/-- Settles O3: the 27 rows are bound, nothing else is, and 27 of the 256 bytes are bound. -/
theorem defaultMapBindsTheTable : Obligations.DefaultMapBindsTheTable := by
  refine ⟨boundBy_defaultOpcodeMap, fun b hb => ?_, ?_⟩
  · obtain ⟨i, rfl⟩ := exists_opcode_eq_of_opClassOf_ne_unrecognized hb
    exact ⟨i, rfl, (boundBy_defaultOpcodeMap i).symm⟩
  · have hsum := List.length_eq_length_filter_add (l := List.range 256) fun n =>
      opClassOf defaultOpcodeMap (BitVec.ofNat 8 n) == .unrecognized
    have hbound : ((tableRows.map Instr.opcode).map BitVec.toNat).length = 27 := rfl
    rw [bound_numbers_perm.length_eq, hbound, List.length_range] at hsum
    omega

/-- Settles O4: the decoder evaluates on each of the six byte runs. -/
theorem exampleWordsDecode : Obligations.ExampleWordsDecode :=
  ⟨rfl, rfl, rfl, rfl, rfl, rfl⟩

/-- An opcode byte alone is decoded without regard to the address length (R77). -/
theorem decode_singleton_addrLen (map : OpcodeMap) (m n : Nat) (b : Byte) :
    decode map m [b] = decode map n [b] := by
  simp only [decode, List.take_nil, List.drop_nil]

theorem decode_of_decodeTableWord {w : Nat} {i : Instr} (h : decodeTableWord 8 w = some i) :
    ∃ left, decode defaultOpcodeMap 3 [BitVec.ofNat 8 w] = .instr i left := by
  have hbytes : wordBytes (8 / 8) w = [BitVec.ofNat 8 w] := rfl
  rw [decodeTableWord, hbytes] at h
  split at h
  · next j left hd => exact ⟨left, hd.trans (by rw [Option.some.inj h])⟩
  · cases h

/-- Settles O6: the word is one byte on the link, and the step over it is O5. -/
theorem fetchedTableWordRuns : Obligations.FetchedTableWordRuns := by
  intro s w i hmap hw
  obtain ⟨left, hdecode⟩ := decode_of_decodeTableWord hw
  rw [decode_singleton_addrLen _ 3 s.addrLen, ← hmap] at hdecode
  exact stepRunsDecodedInstruction (s.withFetchWord 8 w) _ [] i left rfl rfl hdecode

end Sys2Proof.Machine
